-- ==== Sys2Proof/Word.lean ====
section
/-! DEFINITION. The bit-vector types of the machine (00_scope.md R6, R7). -/

namespace Sys2Proof

/-- A Word16: a register value, a memory word, an address (R7). Its arithmetic wraps modulo 65,536. -/
abbrev Word := BitVec 16

/-- An 8-bit character code of the console ports, a trap vector, or half of a word (R182, R183). -/
abbrev Byte := BitVec 8

/-- A 3-bit register field; the value i selects Ri, and all eight values are legal (R22). -/
abbrev Reg := BitVec 3

end Sys2Proof
end

