-- ==== Sys2Proof/Syntax.lean ====
section
/-! DEFINITION. The instruction set as syntax: the sixteen opcodes (30_encoding.md R75), the instruction forms
(one constructor per row of spec/opcode_table.json) and the six trap services (44_trap.md R181). -/

namespace Sys2Proof

/-- The sixteen opcode values by name (R75). `jsr` is opcode 4, shared by JSR and JSRR. -/
inductive Opcode where
  | br | add | ld | st | jsr | and | ldr | str | rti | not | ldi | sti | jmp | res | lea | trap
deriving DecidableEq, Repr

/-- The instruction forms, with the operand fields of R72 as the bits the encoding holds.

Bits that no field occupies (R77) are not kept, because nothing can observe them, but for the three forms whose
fault record shows the whole instruction word (60_exceptions.md R221): TRAP keeps its four unused bits [11:8], RTI
and RES their twelve undecoded bits [11:0]. -/
inductive Instr where
  /-- ADD, register form (R100). -/
  | add (dr sr1 sr2 : Reg)
  /-- ADD, immediate form (R101). -/
  | addImm (dr sr1 : Reg) (imm5 : BitVec 5)
  /-- AND, register form (R102). -/
  | and (dr sr1 sr2 : Reg)
  /-- AND, immediate form (R103). -/
  | andImm (dr sr1 : Reg) (imm5 : BitVec 5)
  /-- NOT (R104). -/
  | not (dr sr : Reg)
  /-- BR with the mask n z p = bits [11], [10], [9] (R120). -/
  | br (mask : BitVec 3) (pcOffset9 : BitVec 9)
  /-- JMP, and RET when the base is R7 (R121). -/
  | jmp (baseR : Reg)
  /-- JSR (R122). -/
  | jsr (pcOffset11 : BitVec 11)
  /-- JSRR (R123). -/
  | jsrr (baseR : Reg)
  /-- LD (R140). -/
  | ld (dr : Reg) (pcOffset9 : BitVec 9)
  /-- LDI (R141). -/
  | ldi (dr : Reg) (pcOffset9 : BitVec 9)
  /-- LDR (R142). -/
  | ldr (dr baseR : Reg) (offset6 : BitVec 6)
  /-- LEA (R143). -/
  | lea (dr : Reg) (pcOffset9 : BitVec 9)
  /-- ST (R160). -/
  | st (sr : Reg) (pcOffset9 : BitVec 9)
  /-- STI (R161). -/
  | sti (sr : Reg) (pcOffset9 : BitVec 9)
  /-- STR (R162). -/
  | str (sr baseR : Reg) (offset6 : BitVec 6)
  /-- TRAP (R180). -/
  | trap (unused : BitVec 4) (trapvect8 : Byte)
  /-- RTI, reserved and fatal (R210). -/
  | rti (undecoded : BitVec 12)
  /-- RES, reserved and fatal (R211). -/
  | res (undecoded : BitVec 12)
deriving DecidableEq, Repr

/-- The six services of the trap dispatcher (R181). -/
inductive Service where
  | getc | out | puts | inp | putsp | halt
deriving DecidableEq, Repr

end Sys2Proof
end

