-- ==== Sys2Proof/WellFormed.lean ====
section
/-! DEFINITION. Which instructions are legal encodings (30_encoding.md R78). Field ranges need no check: each operand
is held in exactly the bits of its field, and every value of every field is legal (10_state.md R22, R74). -/

namespace Sys2Proof

/-- The trap vectors that name a service: 0x20 to 0x25 (R78 (c), R181). -/
def definedVector (v : Byte) : Bool := decide (0x20 ≤ v.toNat ∧ v.toNat ≤ 0x25)

/-- R78: exactly RTI words, RES words and TRAP words with an undefined vector are illegal. An illegal instruction
decodes and executes: it raises a fatal condition. -/
def Instr.wellFormed : Instr → Bool
  | .rti _ => false
  | .res _ => false
  | .trap _ v => definedVector v
  | .add _ _ _ => true
  | .addImm _ _ _ => true
  | .and _ _ _ => true
  | .andImm _ _ _ => true
  | .not _ _ => true
  | .br _ _ => true
  | .jmp _ => true
  | .jsr _ => true
  | .jsrr _ => true
  | .ld _ _ => true
  | .ldi _ _ => true
  | .ldr _ _ _ => true
  | .lea _ _ => true
  | .st _ _ => true
  | .sti _ _ => true
  | .str _ _ _ => true

end Sys2Proof
end

