-- ==== Sys2Proof/Decode.lean ====
section
/-! DEFINITION. The decoder and the encoder, from the formats of 30_encoding.md R71 to R77 and R81. -/

namespace Sys2Proof

/-! ## Fields of an instruction word (R72) -/

/-- Bits [11:9]: DR, or SR of a store. -/
def fieldDR (ir : Word) : Reg := ir.extractLsb' 9 3

/-- Bits [8:6]: SR1, SR of NOT, or BaseR. -/
def fieldSR1 (ir : Word) : Reg := ir.extractLsb' 6 3

/-- Bits [2:0]: SR2. -/
def fieldSR2 (ir : Word) : Reg := ir.extractLsb' 0 3

/-- Bits [4:0]: imm5. -/
def fieldImm5 (ir : Word) : BitVec 5 := ir.extractLsb' 0 5

/-- Bits [5:0]: offset6. -/
def fieldOffset6 (ir : Word) : BitVec 6 := ir.extractLsb' 0 6

/-- Bits [8:0]: PCoffset9. -/
def fieldPCoffset9 (ir : Word) : BitVec 9 := ir.extractLsb' 0 9

/-- Bits [10:0]: PCoffset11. -/
def fieldPCoffset11 (ir : Word) : BitVec 11 := ir.extractLsb' 0 11

/-- Bits [11:9]: the condition mask n z p of BR. -/
def fieldMask (ir : Word) : BitVec 3 := ir.extractLsb' 9 3

/-- Bits [7:0]: trapvect8. -/
def fieldTrapvect8 (ir : Word) : Byte := ir.extractLsb' 0 8

/-- Bits [11:8]: the unused bits of TRAP. -/
def fieldTrapUnused (ir : Word) : BitVec 4 := ir.extractLsb' 8 4

/-- Bits [11:0]: the undecoded bits of RTI and RES. -/
def fieldUndecoded (ir : Word) : BitVec 12 := ir.extractLsb' 0 12

/-- Bits [15:12]: the opcode value (R71). -/
def fieldOpcode (ir : Word) : BitVec 4 := ir.extractLsb' 12 4

/-! ## Decoding -/

/-- The opcode map of R75, read from bits 15, 14, 13, 12: a closed enumeration of all sixteen values (R76). -/
def decodeOpcode (ir : Word) : Opcode :=
  match ir.getLsbD 15, ir.getLsbD 14, ir.getLsbD 13, ir.getLsbD 12 with
  | false, false, false, false => .br
  | false, false, false, true  => .add
  | false, false, true,  false => .ld
  | false, false, true,  true  => .st
  | false, true,  false, false => .jsr
  | false, true,  false, true  => .and
  | false, true,  true,  false => .ldr
  | false, true,  true,  true  => .str
  | true,  false, false, false => .rti
  | true,  false, false, true  => .not
  | true,  false, true,  false => .ldi
  | true,  false, true,  true  => .sti
  | true,  true,  false, false => .jmp
  | true,  true,  false, true  => .res
  | true,  true,  true,  false => .lea
  | true,  true,  true,  true  => .trap

/-- Decoding of one instruction word. It is total (R76): the opcode selects the form, and a second level selects the
register or immediate form of ADD and AND by bit 5, and JSR or JSRR by bit 11. Unoccupied bits are ignored (R77). -/
def decodeWord (ir : Word) : Instr :=
  match decodeOpcode ir with
  | .br   => .br (fieldMask ir) (fieldPCoffset9 ir)
  | .add  =>
    if ir.getLsbD 5 then .addImm (fieldDR ir) (fieldSR1 ir) (fieldImm5 ir)
    else .add (fieldDR ir) (fieldSR1 ir) (fieldSR2 ir)
  | .ld   => .ld (fieldDR ir) (fieldPCoffset9 ir)
  | .st   => .st (fieldDR ir) (fieldPCoffset9 ir)
  | .jsr  =>
    if ir.getLsbD 11 then .jsr (fieldPCoffset11 ir)
    else .jsrr (fieldSR1 ir)
  | .and  =>
    if ir.getLsbD 5 then .andImm (fieldDR ir) (fieldSR1 ir) (fieldImm5 ir)
    else .and (fieldDR ir) (fieldSR1 ir) (fieldSR2 ir)
  | .ldr  => .ldr (fieldDR ir) (fieldSR1 ir) (fieldOffset6 ir)
  | .str  => .str (fieldDR ir) (fieldSR1 ir) (fieldOffset6 ir)
  | .rti  => .rti (fieldUndecoded ir)
  | .not  => .not (fieldDR ir) (fieldSR1 ir)
  | .ldi  => .ldi (fieldDR ir) (fieldPCoffset9 ir)
  | .sti  => .sti (fieldDR ir) (fieldPCoffset9 ir)
  | .jmp  => .jmp (fieldSR1 ir)
  | .res  => .res (fieldUndecoded ir)
  | .lea  => .lea (fieldDR ir) (fieldPCoffset9 ir)
  | .trap => .trap (fieldTrapUnused ir) (fieldTrapvect8 ir)

/-- A word from its two bytes, the first of them bits [15:8] (the big-endian order of R56 (a) and R251). -/
def wordOfBytes (hi lo : Byte) : Word := hi ++ lo

/-- Bits [7:0] of a word (R56). -/
def lowByte (w : Word) : Byte := w.extractLsb' 0 8

/-- Bits [15:8] of a word (R56). -/
def highByte (w : Word) : Byte := w.extractLsb' 8 8

/-- Why a byte sequence holds no instruction. -/
inductive DecodeError where
  /-- Fewer than the two bytes of an instruction word were given (R70). Raised by `decode` only, never by `step`: a
  fetch reads a whole word (R85). Safe. -/
  | truncated (available : Nat)
deriving DecidableEq, Repr

/-- Decoding at the front of a byte sequence: the instruction and the rest. Every pair of bytes decodes (R76, R85). -/
def decode : List Byte → Except DecodeError (Instr × List Byte)
  | hi :: lo :: rest => .ok (decodeWord (wordOfBytes hi lo), rest)
  | [_] => .error (.truncated 1)
  | [] => .error (.truncated 0)

/-! ## Encoding -/

/-- The opcode value of R75. -/
def opcodeValue : Opcode → BitVec 4
  | .br   => 0b0000
  | .add  => 0b0001
  | .ld   => 0b0010
  | .st   => 0b0011
  | .jsr  => 0b0100
  | .and  => 0b0101
  | .ldr  => 0b0110
  | .str  => 0b0111
  | .rti  => 0b1000
  | .not  => 0b1001
  | .ldi  => 0b1010
  | .sti  => 0b1011
  | .jmp  => 0b1100
  | .res  => 0b1101
  | .lea  => 0b1110
  | .trap => 0b1111

/-- The opcode of an instruction form (R75; JSR and JSRR share one, R76). -/
def instrOpcode : Instr → Opcode
  | .add _ _ _    => .add
  | .addImm _ _ _ => .add
  | .and _ _ _    => .and
  | .andImm _ _ _ => .and
  | .not _ _      => .not
  | .br _ _       => .br
  | .jmp _        => .jmp
  | .jsr _        => .jsr
  | .jsrr _       => .jsr
  | .ld _ _       => .ld
  | .ldi _ _      => .ldi
  | .ldr _ _ _    => .ldr
  | .lea _ _      => .lea
  | .st _ _       => .st
  | .sti _ _      => .sti
  | .str _ _ _    => .str
  | .trap _ _     => .trap
  | .rti _        => .rti
  | .res _        => .res

/-- A field placed in an instruction word with its lowest bit at bit `lo`. -/
def place {n : Nat} (lo : Nat) (f : BitVec n) : Word := f.setWidth 16 <<< lo

/-- The encoder, by the formats of R73. Unoccupied bits are written as the spec's assembler writes them: 0, but
bits [5:0] of NOT as 111111 (R81). -/
def encode : Instr → Word
  | .add d a b        => place 12 (opcodeValue .add) ||| place 9 d ||| place 6 a ||| place 0 b
  | .addImm d a imm   => place 12 (opcodeValue .add) ||| place 9 d ||| place 6 a ||| place 5 1#1 ||| place 0 imm
  | .and d a b        => place 12 (opcodeValue .and) ||| place 9 d ||| place 6 a ||| place 0 b
  | .andImm d a imm   => place 12 (opcodeValue .and) ||| place 9 d ||| place 6 a ||| place 5 1#1 ||| place 0 imm
  | .not d a          => place 12 (opcodeValue .not) ||| place 9 d ||| place 6 a ||| place 0 0b111111#6
  | .br m off         => place 12 (opcodeValue .br) ||| place 9 m ||| place 0 off
  | .jmp b            => place 12 (opcodeValue .jmp) ||| place 6 b
  | .jsr off          => place 12 (opcodeValue .jsr) ||| place 11 1#1 ||| place 0 off
  | .jsrr b           => place 12 (opcodeValue .jsr) ||| place 6 b
  | .ld d off         => place 12 (opcodeValue .ld) ||| place 9 d ||| place 0 off
  | .ldi d off        => place 12 (opcodeValue .ldi) ||| place 9 d ||| place 0 off
  | .ldr d b off      => place 12 (opcodeValue .ldr) ||| place 9 d ||| place 6 b ||| place 0 off
  | .lea d off        => place 12 (opcodeValue .lea) ||| place 9 d ||| place 0 off
  | .st r off         => place 12 (opcodeValue .st) ||| place 9 r ||| place 0 off
  | .sti r off        => place 12 (opcodeValue .sti) ||| place 9 r ||| place 0 off
  | .str r b off      => place 12 (opcodeValue .str) ||| place 9 r ||| place 6 b ||| place 0 off
  | .trap u v         => place 12 (opcodeValue .trap) ||| place 8 u ||| place 0 v
  | .rti u            => place 12 (opcodeValue .rti) ||| place 0 u
  | .res u            => place 12 (opcodeValue .res) ||| place 0 u

/-- The two bytes of an instruction, bits [15:8] first. -/
def encodeBytes (i : Instr) : List Byte := [highByte (encode i), lowByte (encode i)]

/-- The instruction that the decoder reads from an instruction of `nbits` bits whose bits are `w` (bits above `nbits`
are 0), laid out as two bytes with bits [15:8] first; none where it refuses. -/
def decodeTableWord (nbits w : Nat) : Option Instr :=
  let ir : Word := BitVec.ofNat 16 (w % 2 ^ nbits)
  match decode [highByte ir, lowByte ir] with
  | .ok (i, _) => some i
  | .error _ => none

end Sys2Proof
end

