-- ==== Sys2Proof/Config.lean ====
section
/-! DEFINITION. The parameters of the block (00_scope.md R5; 92_eei_decisions.md, "Parameters left OPEN"). The device
parameters INPUT and OUTPUT stand in the state, as the answers the host has still to give (Machine/State.lean). -/

namespace Sys2Proof.Config

/-- The start parameters that are registers or constants of the machine. MEM_INIT is given as a whole memory
(`Machine.State.start`). -/
structure Params where
  /-- PC_START, "default 0x3000" (R5, R37). -/
  pcStart : Word := 0x3000
  /-- GPR_INIT, OPEN (R39, D5). DESIGN CHOICE (log 1): the default is the admitted value zero. -/
  gprInit : Vector Word 8 := Vector.replicate 8 0
  /-- IN_PROMPT, OPEN (R187, D12). DESIGN CHOICE (log 3): the default is the admitted empty prompt. -/
  inPrompt : List Byte := []
deriving DecidableEq, Repr

/-- What a byte cell that memory does not list reads as. MEM_INIT is OPEN (R60, D6); DESIGN CHOICE (log 2): zero, an
admitted value. Any other MEM_INIT is a memory that lists its non-zero bytes. -/
def unlistedByte : Byte := 0

/-- How many byte cells the address space has: 65,536 words of two bytes (R50). -/
def cellCount : Nat := 131072

end Sys2Proof.Config
end

