-- ==== Sys2Proof/Machine/State.lean ====
section
/-! DEFINITION. The state of the machine as plain data (10_state.md, 20_memory.md R50, 44_trap.md R182 and R183), the
reasons a step can stop, and the state at machine start (70_reset_and_hazards.md R250). -/

namespace Sys2Proof.Machine

/-- The condition register: exactly one of N, Z and P (R27, R28). Its 3-bit layout is `Cond.bits` (Flags.lean). -/
inductive Cond where
  | n | z | p
deriving DecidableEq, Repr

/-- The two console devices (R233). -/
inductive Device where
  | input | output
deriving DecidableEq, Repr

/-- The three conditions of the taxonomy (R220). -/
inductive Condition where
  | illFormedInstruction | unrecognizedTrapVector | hostIOFailure
deriving DecidableEq, Repr

/-- The numeric code of a condition (R220, D18). -/
def Condition.code : Condition → Nat
  | .illFormedInstruction => 1
  | .unrecognizedTrapVector => 2
  | .hostIOFailure => 3

/-- The record of a fatal condition (R221): the condition with its code, the address of the instruction, its word, its
opcode ir[15:12], and for code 2 the trap vector. -/
structure FaultRecord where
  condition : Condition
  address : Word
  word : Word
  opcode : BitVec 4
  vector : Option Byte
deriving DecidableEq, Repr

/-- The record of a host I/O failure (R221): the condition, the address, the trap vector and the device that failed. -/
structure IORecord where
  condition : Condition
  address : Word
  vector : Byte
  device : Device
deriving DecidableEq, Repr

/-- The run status (R34). All but `running` are terminal. -/
inductive Status where
  | running
  | halted
  | faulted (record : FaultRecord)
  | ioFailed (record : IORecord)
deriving DecidableEq, Repr

/-- One answer of the console input device (R182). -/
inductive InputAnswer where
  | char (b : Byte)
  | fail
deriving DecidableEq, Repr

/-- One answer of the console output device (R183). -/
inductive OutputAnswer where
  | ok
  | fail
deriving DecidableEq, Repr

/-- What the output device does after its listed answers: it answers Ok to every call, or it never answers again
(R192, R256 (c)). -/
inductive OutputRest where
  | ok
  | silent
deriving DecidableEq, Repr

/-- The console devices as the block meets them: the oracles INPUT and OUTPUT of R5, as the answers still to come in
order, and the codes written so far (R183). -/
structure Console where
  /-- The answers of the input device still to come. None left: the device does not answer (log 4). -/
  inputs : List InputAnswer
  /-- The answers of the output device still to come. -/
  outputs : List OutputAnswer
  /-- What the output device does once `outputs` is used up (log 5). -/
  outputRest : OutputRest
  /-- The observable output: the codes of the calls answered Ok, in call order (R183, R254). -/
  written : List Byte
deriving DecidableEq, Repr

/-- The console at machine start: nothing written, no input answered yet, an output device that always answers Ok
(log 4, log 5: DESIGN CHOICE, the host supplies other answers). -/
def Console.fresh : Console := { inputs := [], outputs := [], outputRest := .ok, written := [] }

/-- Memory: a list of (cell, byte) pairs in one canonical form. The word at address a is held in the cells 2a (bits
[15:8]) and 2a + 1 (bits [7:0]); the block itself only ever moves whole words (R54, R55; log 6). -/
structure Memory where
  cells : List Host.Cell
deriving DecidableEq, Repr

/-- Memory with nothing listed. -/
def Memory.empty : Memory := { cells := [] }

/-- The state of the block between steps. -/
structure State where
  /-- R0 to R7 (R21). -/
  regs : Vector Word 8
  /-- PC (R23). -/
  pc : Word
  /-- COND (R27). -/
  cond : Cond
  /-- The 65,536 words of memory (R50). -/
  mem : Memory
  /-- The run status (R34). -/
  status : Status
  /-- The parameter IN_PROMPT (R187, D12): no instruction writes it. -/
  inPrompt : List Byte
  /-- The console devices (R182, R183). -/
  console : Console
deriving DecidableEq, Repr

/-- Why a step never completes. The block reports none of these (R256): each stands for a step that goes on for ever.
They carry no next state, so every claim about next states leaves them out (safe). -/
inductive Fault where
  /-- Raised by GETC and IN when the input device has no answer left to give: the step waits until the host answers
  (R192, R256 (c), U9). `written` is what the output device holds by then. Safe. -/
  | inputNotAnswered (written : List Byte)
  /-- Raised by OUT, PUTS, IN and PUTSP when the output device never answers a call (R192, R256 (c)). `written` is what
  the output device holds by then. Safe. -/
  | outputNotAnswered (written : List Byte)
  /-- Raised by PUTS and PUTSP on a string with no terminator from R0 onward (R186, R188, R256 (b), U8). Safe. -/
  | stringNeverEnds
deriving DecidableEq, Repr

/-- What the model turns away without a state. -/
inductive Refusal where
  /-- Raised by an arm of `exec` for an instruction without a meaning; no arm raises it now. Safe. -/
  | notModelled (mnemonic : String)
  /-- Raised by the loader for an image with no origin word (R251; log 9). Safe. -/
  | imageHasNoOrigin
  /-- Raised by the loader for an image whose last word would lie above 0xFFFF (R251, D23, U11). Safe. -/
  | imageTooLong
  /-- Raised by the loader for a byte stream with an odd number of bytes (R251, D23, U11). Safe. -/
  | imageHasOddBytes
  /-- Raised by the host state-access port for a COND value without exactly one flag (R46, U14). Safe. -/
  | notOneFlag
deriving DecidableEq, Repr

/-- Step 1 of a machine start (R250): every register at its reset value for the parameters `params`, memory at MEM_INIT
(R60), the status `running`, and a console that has written nothing. -/
def State.start (params : Config.Params) (memInit : Memory) (console : Console) : State :=
  { regs := params.gprInit
    pc := params.pcStart
    cond := .z
    mem := memInit
    status := .running
    inPrompt := params.inPrompt
    console := { console with written := [] } }

/-- The machine right after reset (R37 to R41), no image loaded, at the parameters' default values: GPR_INIT and
MEM_INIT zero, IN_PROMPT empty (log 1, log 2, log 3: DESIGN CHOICE, admitted values). -/
def State.reset : State := State.start {} Memory.empty Console.fresh

end Sys2Proof.Machine
end

