-- ==== Sys2Proof/Machine/Ops.lean ====
section
/-! DEFINITION. The named operations over memory, registers, the status and the console ports. -/

namespace Sys2Proof.Machine

/-! ## Memory (20_memory.md) -/

/-- The first listed byte of a cell, or what an unlisted cell reads as. -/
def lookupCell (k : Nat) : List Host.Cell → Byte
  | [] => Config.unlistedByte
  | (k', b) :: rest => if k' = k then b else lookupCell k rest

/-- The list without any entry for the cell `k`. -/
def eraseCell (k : Nat) : List Host.Cell → List Host.Cell
  | [] => []
  | (k', b) :: rest => if k' = k then eraseCell k rest else (k', b) :: eraseCell k rest

/-- The list with (k, b) in front of the first entry of a higher cell. -/
def insertCell (k : Nat) (b : Byte) : List Host.Cell → List Host.Cell
  | [] => [(k, b)]
  | (k', b') :: rest => if k < k' then (k, b) :: (k', b') :: rest else (k', b') :: insertCell k b rest

/-- Reads one byte cell. -/
def Memory.readByte (m : Memory) (k : Nat) : Byte := lookupCell k m.cells

/-- Writes one byte cell and keeps the canonical form: a byte equal to what an unlisted cell reads as is not listed. -/
def Memory.writeByte (m : Memory) (k : Nat) (b : Byte) : Memory :=
  if b = Config.unlistedByte then { cells := eraseCell k m.cells }
  else { cells := insertCell k b (eraseCell k m.cells) }

/-- The cell of bits [15:8] of the word at address a (log 6). -/
def highCell (a : Word) : Nat := 2 * a.toNat

/-- The cell of bits [7:0] of the word at address a (log 6). -/
def lowCell (a : Word) : Nat := 2 * a.toNat + 1

/-- `MemRead(a, 1)`: total, without side effect (R51). -/
def Memory.readWord (m : Memory) (a : Word) : Word :=
  wordOfBytes (m.readByte (highCell a)) (m.readByte (lowCell a))

/-- `MemWrite(a, 1, v)`: total, changes no other word (R52). -/
def Memory.writeWord (m : Memory) (a v : Word) : Memory :=
  (m.writeByte (highCell a) (highByte v)).writeByte (lowCell a) (lowByte v)

/-- Whether every entry of the list lies above the cell `k`, below the end of the address space, in rising order, and
differs from what an unlisted cell reads as. -/
def cellsAbove (k : Nat) : List Host.Cell → Bool
  | [] => true
  | (k', b) :: rest =>
    decide (k < k') && decide (k' < Config.cellCount) && decide (b ≠ Config.unlistedByte) && cellsAbove k' rest

/-- The canonical form: cells strictly rising and within the address space, no entry equal to what an unlisted cell
reads as. -/
def Memory.wf (m : Memory) : Bool :=
  match m.cells with
  | [] => true
  | (k, b) :: rest =>
    decide (k < Config.cellCount) && decide (b ≠ Config.unlistedByte) && cellsAbove k rest

/-- `MemRead` on the machine's memory (R51). -/
def State.memRead (s : State) (a : Word) : Word := s.mem.readWord a

/-- `MemWrite` on the machine's memory (R52). -/
def State.memWrite (s : State) (a v : Word) : State := { s with mem := s.mem.writeWord a v }

/-! ## Registers (10_state.md) -/

/-- `x[i]`: the value of Ri (R21, R22). -/
def State.reg (s : State) (r : Reg) : Word := s.regs[r.toNat]'(r.isLt)

/-- `x[i] <- v` (R21, R22). No register is hardwired. -/
def State.setReg (s : State) (r : Reg) (v : Word) : State := { s with regs := s.regs.set r.toNat v r.isLt }

/-- `pc <- t`; every Word16 is a valid target (R25). -/
def State.setPc (s : State) (t : Word) : State := { s with pc := t }

/-- Writes COND. -/
def State.setCond (s : State) (c : Cond) : State := { s with cond := c }

/-- The fetch of the instruction word at PC (R82, R85). -/
def State.fetch (s : State) : Word := s.memRead s.pc

/-- The fetch increment: PC plus one, modulo 65,536 (R23, R26, R82). -/
def State.advancePc (s : State) : State := s.setPc (s.pc + 1)

/-- The address `a` of the instruction being executed, while PC already holds a + 1 (R23, R82). -/
def State.instrAddress (s : State) : Word := s.pc - 1

/-! ## Stops: taking a condition, and HALT (60_exceptions.md) -/

/-- The record of a fatal condition raised by the instruction word `ir` (R221). -/
def State.faultRecord (s : State) (kind : Condition) (ir : Word) (vector : Option Byte) : FaultRecord :=
  { condition := kind
    address := s.instrAddress
    word := ir
    opcode := fieldOpcode ir
    vector := vector }

/-- `raise Fatal(IllFormedInstruction, …)`: code 1. Only the status changes; PC keeps the fetch increment (R222). -/
def State.raiseIllFormed (s : State) (ir : Word) : State :=
  { s with status := .faulted (s.faultRecord .illFormedInstruction ir none) }

/-- `raise Fatal(UnrecognizedTrapVector, …)`: code 2, with the vector ir[7:0] (R190, R221, R222). -/
def State.raiseBadVector (s : State) (ir : Word) : State :=
  { s with status := .faulted (s.faultRecord .unrecognizedTrapVector ir (some (fieldTrapvect8 ir))) }

/-- `raise IOFailure(…)`: code 3. Only the status changes; what the service wrote before remains (R223). -/
def State.raiseIOFailure (s : State) (vector : Byte) (device : Device) : State :=
  let record : IORecord :=
    { condition := .hostIOFailure, address := s.instrAddress, vector := vector, device := device }
  { s with status := .ioFailed record }

/-- `stop Halted` (R189). -/
def State.halt (s : State) : State := { s with status := .halted }

/-- Leaving a terminal status: there is no instruction for it, only a reset by the embedding caller, which is a new
machine start (R227, R228, R252). -/
def State.resetByCaller (_ : State) (params : Config.Params) (memInit : Memory) (console : Console) : State :=
  State.start params memInit console

/-! ## The console device ports (44_trap.md R182, R183) -/

/-- What one call of the input port gives. -/
inductive InputResult where
  /-- `Char(b)`, and the state after the call. -/
  | char (b : Byte) (s : State)
  /-- `Fail`, and the state after the call. -/
  | fail (s : State)
  /-- The device does not answer. -/
  | noAnswer
deriving DecidableEq, Repr

/-- `Input()` (R182): the device's next answer. -/
def State.input (s : State) : InputResult :=
  match s.console.inputs with
  | [] => .noAnswer
  | .char b :: rest => .char b { s with console := { s.console with inputs := rest } }
  | .fail :: rest => .fail { s with console := { s.console with inputs := rest } }

/-- What one call of the output port gives. -/
inductive EmitResult where
  /-- `Ok`, and the state after the call. -/
  | ok (s : State)
  /-- `Fail`, and the state after the call. -/
  | fail (s : State)
  /-- The device never answers. -/
  | noAnswer
deriving DecidableEq, Repr

/-- `Emit(b)` (R183): an Ok call writes the code unchanged, a failed call writes nothing. -/
def State.emit (s : State) (b : Byte) : EmitResult :=
  match s.console.outputs, s.console.outputRest with
  | .ok :: rest, _ =>
    .ok { s with console := { s.console with outputs := rest, written := s.console.written ++ [b] } }
  | .fail :: rest, _ => .fail { s with console := { s.console with outputs := rest } }
  | [], .ok => .ok { s with console := { s.console with written := s.console.written ++ [b] } }
  | [], .silent => .noAnswer

/-- Emits `b` inside the service of `vector` and goes on with `next`: a device that fails raises the host I/O failure
(R223), one that never answers keeps the step from completing (R192). -/
def emitThen (vector b : Byte) (s : State) (next : State → Host.Outcome State Fault Refusal) :
    Host.Outcome State Fault Refusal :=
  match s.emit b with
  | .ok s' => next s'
  | .fail s' => .next (s'.raiseIOFailure vector .output)
  | .noAnswer => .fault (.outputNotAnswered s.console.written)

/-- Reads one code inside the service of `vector` and goes on with `next` (R184, R187, R192, R223). -/
def inputThen (vector : Byte) (s : State) (next : Byte → State → Host.Outcome State Fault Refusal) :
    Host.Outcome State Fault Refusal :=
  match s.input with
  | .char b s' => next b s'
  | .fail s' => .next (s'.raiseIOFailure vector .input)
  | .noAnswer => .fault (.inputNotAnswered s.console.written)

end Sys2Proof.Machine
end

