-- ==== Sys2Proof/Machine/Flags.lean ====
section
/-! DEFINITION. The condition flags: the layout of COND, `SetCC`, and the branch test (10_state.md R27 to R32). -/

namespace Sys2Proof.Machine

/-- The 3-bit layout of COND: N = 0b100, Z = 0b010, P = 0b001 (R27, D3). -/
def Cond.bits : Cond → BitVec 3
  | .n => 0b100
  | .z => 0b010
  | .p => 0b001

/-- The flag a 3-bit value holds, if it holds exactly one (R27, R28). -/
def condOfBits (b : BitVec 3) : Option Cond :=
  if b = 0b100 then some .n
  else if b = 0b010 then some .z
  else if b = 0b001 then some .p
  else none

/-- The flag of a value: Z if it is 0, N if its bit 15 is 1, P otherwise (R30). -/
def condOf (v : Word) : Cond :=
  if v = 0 then .z
  else if v.getLsbD 15 then .n
  else .p

/-- `SetCC(v)` (R30). -/
def State.setCC (s : State) (v : Word) : State := s.setCond (condOf v)

/-- `x[DR] <- v; SetCC(v)`: how every flag-updating instruction writes its result (R31). -/
def State.writeResult (s : State) (dr : Reg) (v : Word) : State := (s.setReg dr v).setCC v

/-- BR's test `(m & cond) != 0` (R120). -/
def branchTaken (mask : BitVec 3) (c : Cond) : Bool := decide (mask &&& c.bits ≠ 0)

end Sys2Proof.Machine
end

