-- ==== Sys2Proof/Machine/Operands.lean ====
section
/-! DEFINITION. The operand forms: extension of fields (00_scope.md R8, R9; 30_encoding.md R74) and the effective
addresses (42_load.md R144). In each, the state is the one the handler sees, whose PC is a + 1 (R23). -/

namespace Sys2Proof.Machine

/-- `sext_n(f)` (R8). -/
def sext {n : Nat} (f : BitVec n) : Word := f.signExtend 16

/-- `zext_16(f)` (R9). -/
def zext {n : Nat} (f : BitVec n) : Word := f.setWidth 16

/-- PC-relative: `pc + sext_9(ir[8:0])` (R144). -/
def State.eaPcRel (s : State) (off : BitVec 9) : Word := s.pc + sext off

/-- Indirect: `MemRead(pc + sext_9(ir[8:0]), 1)` (R144). -/
def State.eaIndirect (s : State) (off : BitVec 9) : Word := s.memRead (s.eaPcRel off)

/-- Base plus offset: `x[BaseR] + sext_6(ir[5:0])` (R144). -/
def State.eaBase (s : State) (base : Reg) (off : BitVec 6) : Word := s.reg base + sext off

/-- R7, the link register of JSR and JSRR (R125). -/
def linkReg : Reg := 7

/-- R0, the register of the trap services (R193). -/
def trapReg : Reg := 0

end Sys2Proof.Machine
end

