-- ==== Sys2Proof/Machine/Control.lean ====
section
/-! DEFINITION. The control transfers (41_control.md). -/

namespace Sys2Proof.Machine

/-- BR (R120). -/
def execBr (mask : BitVec 3) (off : BitVec 9) (s : State) : Host.Outcome State Fault Refusal :=
  .next (if branchTaken mask s.cond then s.setPc (s.eaPcRel off) else s)

/-- JMP, and RET (R121). -/
def execJmp (baseR : Reg) (s : State) : Host.Outcome State Fault Refusal :=
  .next (s.setPc (s.reg baseR))

/-- `x[7] <- pc`: the return address a + 1 (R122, R123, R125). -/
def State.link (s : State) : State := s.setReg linkReg s.pc

/-- JSR (R122). -/
def execJsr (off : BitVec 11) (s : State) : Host.Outcome State Fault Refusal :=
  .next (s.link.setPc (s.link.pc + sext off))

/-- JSRR (R123): the base register is read after R7 is written (D9). -/
def execJsrr (baseR : Reg) (s : State) : Host.Outcome State Fault Refusal :=
  .next (s.link.setPc (s.link.reg baseR))

end Sys2Proof.Machine
end

