-- ==== Sys2Proof/Machine/Load.lean ====
section
/-! DEFINITION. The loads and LEA (42_load.md). -/

namespace Sys2Proof.Machine

/-- LD (R140). -/
def execLd (dr : Reg) (off : BitVec 9) (s : State) : Host.Outcome State Fault Refusal :=
  .next (s.writeResult dr (s.memRead (s.eaPcRel off)))

/-- LDI (R141): the pointer is read first, then the data (R63). -/
def execLdi (dr : Reg) (off : BitVec 9) (s : State) : Host.Outcome State Fault Refusal :=
  .next (s.writeResult dr (s.memRead (s.eaIndirect off)))

/-- LDR (R142). -/
def execLdr (dr baseR : Reg) (off : BitVec 6) (s : State) : Host.Outcome State Fault Refusal :=
  .next (s.writeResult dr (s.memRead (s.eaBase baseR off)))

/-- LEA (R143): the address itself, without a memory access; it sets COND. -/
def execLea (dr : Reg) (off : BitVec 9) (s : State) : Host.Outcome State Fault Refusal :=
  .next (s.writeResult dr (s.eaPcRel off))

end Sys2Proof.Machine
end

