-- ==== Sys2Proof/Machine/Reserved.lean ====
section
/-! DEFINITION. The reserved opcodes (45_reserved.md): each raises the fatal condition IllFormedInstruction. -/

namespace Sys2Proof.Machine

/-- RTI, opcode value 8 (R210). -/
def execRti (undecoded : BitVec 12) (s : State) : Host.Outcome State Fault Refusal :=
  .next (s.raiseIllFormed (encode (.rti undecoded)))

/-- RES, opcode value 13 (R211). -/
def execRes (undecoded : BitVec 12) (s : State) : Host.Outcome State Fault Refusal :=
  .next (s.raiseIllFormed (encode (.res undecoded)))

end Sys2Proof.Machine
end

