-- ==== Sys2Proof/Machine/Store.lean ====
section
/-! DEFINITION. The stores (43_store.md). -/

namespace Sys2Proof.Machine

/-- ST (R160). -/
def execSt (sr : Reg) (off : BitVec 9) (s : State) : Host.Outcome State Fault Refusal :=
  .next (s.memWrite (s.eaPcRel off) (s.reg sr))

/-- STI (R161): the pointer is read before the write (R63). -/
def execSti (sr : Reg) (off : BitVec 9) (s : State) : Host.Outcome State Fault Refusal :=
  .next (s.memWrite (s.eaIndirect off) (s.reg sr))

/-- STR (R162). -/
def execStr (sr baseR : Reg) (off : BitVec 6) (s : State) : Host.Outcome State Fault Refusal :=
  .next (s.memWrite (s.eaBase baseR off) (s.reg sr))

end Sys2Proof.Machine
end

