-- ==== Sys2Proof/Machine/Trap.lean ====
section
/-! DEFINITION. TRAP, the trap dispatcher and its six services (44_trap.md). No service writes COND, memory, R7 or PC
(R191). -/

namespace Sys2Proof.Machine

/-- The dispatcher's fixed table of vectors (R181). -/
def serviceOf (v : Byte) : Option Service :=
  if v = 0x20 then some .getc
  else if v = 0x21 then some .out
  else if v = 0x22 then some .puts
  else if v = 0x23 then some .inp
  else if v = 0x24 then some .putsp
  else if v = 0x25 then some .halt
  else none

/-- GETC (R184): R0 gets the code, zero-extended; COND is left alone. -/
def serviceGetc (s : State) : Host.Outcome State Fault Refusal :=
  inputThen 0x20 s fun b s' => .next (s'.setReg trapReg (zext b))

/-- OUT (R185): the low byte of R0. -/
def serviceOut (s : State) : Host.Outcome State Fault Refusal :=
  emitThen 0x21 (lowByte (s.reg trapReg)) s fun s' => .next s'

/-- The loop of PUTS from address `i` (R186), for at most `fuel` words. Out of fuel, the loop never ends: see
`stringFuel`. -/
def putsLoop : Nat → Word → State → Host.Outcome State Fault Refusal
  | 0, _, _ => .fault .stringNeverEnds
  | fuel + 1, i, s =>
    if s.memRead i = 0 then .next s
    else emitThen 0x22 (lowByte (s.memRead i)) s fun s' => putsLoop fuel (i + 1) s'

/-- The loop of PUTSP from address `i` (R188; a zero high byte ends the output, 90_conflicts.md C7), for at most `fuel`
words. -/
def putspLoop : Nat → Word → State → Host.Outcome State Fault Refusal
  | 0, _, _ => .fault .stringNeverEnds
  | fuel + 1, i, s =>
    if lowByte (s.memRead i) = 0 then .next s
    else emitThen 0x24 (lowByte (s.memRead i)) s fun s' =>
      if highByte (s.memRead i) = 0 then .next s'
      else emitThen 0x24 (highByte (s.memRead i)) s' fun s'' => putspLoop fuel (i + 1) s''

/-- How many words settle whether a string ends. The address wraps (R186), so after 65,536 words every word of memory
has been seen without a terminator; after as many calls as the output device has listed answers, none of which failed,
the device answers every further call alike. A loop that reaches both never ends (R256 (b)). -/
def stringFuel (s : State) : Nat := 65536 + s.console.outputs.length

/-- PUTS (R186). R0 keeps the start address. -/
def servicePuts (s : State) : Host.Outcome State Fault Refusal :=
  putsLoop (stringFuel s) (s.reg trapReg) s

/-- Emits the codes of the prompt in order, then goes on with `next` (R187). -/
def emitAllThen (vector : Byte) : List Byte → State → (State → Host.Outcome State Fault Refusal) →
    Host.Outcome State Fault Refusal
  | [], s, next => next s
  | c :: rest, s, next => emitThen vector c s fun s' => emitAllThen vector rest s' next

/-- IN (R187, D19): prompt, read, echo, then the write of R0; COND is left alone. -/
def serviceIn (s : State) : Host.Outcome State Fault Refusal :=
  emitAllThen 0x23 s.inPrompt s fun s1 =>
    inputThen 0x23 s1 fun b s2 =>
      emitThen 0x23 b s2 fun s3 => .next (s3.setReg trapReg (zext b))

/-- PUTSP (R188). -/
def servicePutsp (s : State) : Host.Outcome State Fault Refusal :=
  putspLoop (stringFuel s) (s.reg trapReg) s

/-- HALT (R189, D14): nothing but the status changes. -/
def serviceHalt (s : State) : Host.Outcome State Fault Refusal := .next s.halt

/-- TRAP (R180): the dispatcher of R181, and the fatal condition of R190 for every other vector. -/
def execTrap (unused : BitVec 4) (v : Byte) (s : State) : Host.Outcome State Fault Refusal :=
  match serviceOf v with
  | some .getc => serviceGetc s
  | some .out => serviceOut s
  | some .puts => servicePuts s
  | some .inp => serviceIn s
  | some .putsp => servicePutsp s
  | some .halt => serviceHalt s
  | none => .next (s.raiseBadVector (encode (.trap unused v)))

end Sys2Proof.Machine
end

