-- ==== Sys2Proof/Machine/Step.lean ====
section
/-! DEFINITION. One step: fetch, increment, decode, dispatch (30_encoding.md R82), and the terminal statuses (R83). -/

namespace Sys2Proof.Machine

/-- One fetch-decode-execute cycle (R82). In a terminal status it performs no fetch and changes nothing (R83). -/
def step (s : State) : Host.Outcome State Fault Refusal :=
  match s.status with
  | .running => exec (decodeWord s.fetch) s.advancePc
  | .halted => .next s
  | .faulted _ => .next s
  | .ioFailed _ => .next s

/-- `s` with the instruction word `w` (its bits above `nbits` zero) at PC, where the next step fetches, and the status
`running`, without which no step fetches (R83). -/
def State.withFetchWord (s : State) (nbits w : Nat) : State :=
  { s.memWrite s.pc (BitVec.ofNat 16 (w % 2 ^ nbits)) with status := .running }

end Sys2Proof.Machine
end

