-- ==== Sys2Proof/Machine/Ports.lean ====
section
/-! DEFINITION. The block's transaction-level ports (10_state.md R42 to R47), the host's device answers, and the image
loader's contract (70_reset_and_hazards.md R251). -/

namespace Sys2Proof.Machine

/-! ## Step, run and status ports -/

/-- The answer of the step port: whether the machine continues (R44). -/
def State.continues (s : State) : Bool := decide (s.status = .running)

/-- `step() -> continues` (R44): the state after the step, and its answer. -/
def stepPort (s : State) : Host.Outcome (State × Bool) Fault Refusal :=
  match step s with
  | .next s' => .next (s', s'.continues)
  | .fault r => .fault r
  | .refused r => .refused r

/-- `run()` (R45): steps until a step answers false. `none` where `fuel` steps are not enough, since a run that reaches
no terminal status does not return. The status port tells the final status. -/
def runPort : Nat → State → Option (Host.Outcome State Fault Refusal)
  | 0, _ => none
  | fuel + 1, s =>
    match stepPort s with
    | .next (s', true) => runPort fuel s'
    | .next (s', false) => some (.next s')
    | .fault r => some (.fault r)
    | .refused r => some (.refused r)

/-- The status port (R47): the status, with its record. -/
def State.statusPort (s : State) : Status := s.status

/-! ## The host state-access port (R46), between steps -/

/-- Reads COND in its 3-bit layout (R27, R46). -/
def State.hostReadCond (s : State) : BitVec 3 := s.cond.bits

/-- Writes COND from its 3-bit layout; a value without exactly one flag is turned away (R46, U14). -/
def State.hostWriteCond (s : State) (b : BitVec 3) : Host.Outcome State Fault Refusal :=
  match condOfBits b with
  | some c => .next (s.setCond c)
  | none => .refused .notOneFlag

/-- Reads a general register. -/
def State.hostReadReg (s : State) (r : Reg) : Word := s.reg r

/-- Writes a general register; COND is not touched. -/
def State.hostWriteReg (s : State) (r : Reg) (v : Word) : State := s.setReg r v

/-- Reads PC. -/
def State.hostReadPc (s : State) : Word := s.pc

/-- Writes PC. -/
def State.hostWritePc (s : State) (v : Word) : State := s.setPc v

/-- Reads a memory word. -/
def State.hostReadMem (s : State) (a : Word) : Word := s.memRead a

/-- Writes a memory word. -/
def State.hostWriteMem (s : State) (a v : Word) : State := s.memWrite a v

/-! ## The host as the console devices (R182, R183) -/

/-- The host adds answers of the input device. -/
def State.supplyInput (s : State) (answers : List InputAnswer) : State :=
  { s with console := { s.console with inputs := s.console.inputs ++ answers } }

/-- The host fixes the answers of the output device from here on. -/
def State.setOutputAnswers (s : State) (answers : List OutputAnswer) (rest : OutputRest) : State :=
  { s with console := { s.console with outputs := answers, outputRest := rest } }

/-! ## The image loader's contract (R251) -/

/-- Writes the words at consecutive addresses from `a`. -/
def State.loadFrom (s : State) (a : Word) : List Word → State
  | [] => s
  | w :: rest => (s.memWrite a w).loadFrom (a + 1) rest

/-- The loader: the first word is the origin, the rest is copied from there on, and PC is set to the origin. An image
that does not fit above its origin is turned away (R251, D23). -/
def State.loadImage (s : State) : List Word → Host.Outcome State Fault Refusal
  | [] => .refused .imageHasNoOrigin
  | origin :: words =>
    if origin.toNat + words.length ≤ 65536 then .next ((s.loadFrom origin words).setPc origin)
    else .refused .imageTooLong

/-- The words of a byte stream, each (first byte × 256 + second byte); none for an odd number of bytes (R251). -/
def wordsOfBytes : List Byte → Option (List Word)
  | [] => some []
  | [_] => none
  | hi :: lo :: rest => (wordsOfBytes rest).map (wordOfBytes hi lo :: ·)

/-- The loader on a byte stream (R251). -/
def State.loadImageBytes (s : State) (bytes : List Byte) : Host.Outcome State Fault Refusal :=
  match wordsOfBytes bytes with
  | some words => s.loadImage words
  | none => .refused .imageHasOddBytes

end Sys2Proof.Machine
end

