-- ==== Sys2Proof/Safety.lean ====
section
/-! DEFINITION. The vocabulary of the claims: what a next state keeps, when the devices answer, which bits of a word the
decoder reads, and the invariant of the machine. -/

namespace Sys2Proof.Safety

open Sys2Proof.Machine

/-- The outcome type of `exec` and `step`. -/
abbrev Out := Host.Outcome State Fault Refusal

/-! ## What a next state holds and keeps -/

/-- `c` is the flag of `v` in the signed reading: Z for zero, N for negative, P for positive (10_state.md R30,
40_operate.md R105). -/
def FlagOf (v : Word) (c : Cond) : Prop :=
  (c = .z ↔ v.toInt = 0) ∧ (c = .n ↔ v.toInt < 0) ∧ (c = .p ↔ 0 < v.toInt)

/-- Every byte of memory reads as before. -/
def KeepsMemory (s t : State) : Prop := ∀ k, t.mem.readByte k = s.mem.readByte k

/-- Every general register but those listed is unchanged. -/
def KeepsRegsBut (s t : State) (written : List Reg) : Prop := ∀ r, r ∉ written → t.reg r = s.reg r

/-- The run status, the prompt and the console devices are unchanged. -/
structure KeepsRest (s t : State) : Prop where
  status : t.status = s.status
  inPrompt : t.inPrompt = s.inPrompt
  console : t.console = s.console

/-- The outcome of a flag-updating instruction: DR holds `v`, COND is the flag of `v`, all else is unchanged, PC being
the handler's, a + 1 (R24, R31). -/
def WritesResult (s : State) (dr : Reg) (v : Word) (o : Out) : Prop :=
  ∃ t, o = .next t ∧ t.reg dr = v ∧ FlagOf v t.cond ∧ KeepsRegsBut s t [dr] ∧ t.pc = s.pc ∧
    KeepsMemory s t ∧ KeepsRest s t

/-- The outcome of a store: the word at `ea` is `v`, every byte outside its two cells (the layout of log 6), and all
else, is unchanged. -/
def StoresWord (s : State) (ea v : Word) (o : Out) : Prop :=
  ∃ t, o = .next t ∧ t.memRead ea = v ∧ (∀ a, a ≠ ea → t.memRead a = s.memRead a) ∧
    (∀ k, k ≠ highCell ea → k ≠ lowCell ea → t.mem.readByte k = s.mem.readByte k) ∧
    KeepsRegsBut s t [] ∧ t.pc = s.pc ∧ t.cond = s.cond ∧ KeepsRest s t

/-- The outcome of a transfer to `target` that writes no general register but, for a call, R7 with `link`. -/
def TransfersTo (s : State) (target : Word) (link : Option Word) (o : Out) : Prop :=
  ∃ t, o = .next t ∧ t.pc = target ∧ (∀ v, link = some v → t.reg 7 = v) ∧
    KeepsRegsBut s t (if link.isSome then [7] else []) ∧ t.cond = s.cond ∧ KeepsMemory s t ∧ KeepsRest s t

/-- The outcome of an input service: R0 holds `v`, the console is `c`, all else is unchanged (R191). -/
def WritesR0 (s : State) (v : Word) (c : Console) (o : Out) : Prop :=
  ∃ t, o = .next t ∧ t.reg 0 = v ∧ KeepsRegsBut s t [0] ∧ t.pc = s.pc ∧ t.cond = s.cond ∧
    KeepsMemory s t ∧ t.status = s.status ∧ t.inPrompt = s.inPrompt ∧ t.console = c

/-! ## The devices' answers -/

/-- The output device answers Ok to each of its next `n` calls. -/
abbrev AcceptsCalls (c : Console) (n : Nat) : Prop :=
  (∀ a ∈ c.outputs.take n, a = OutputAnswer.ok) ∧ (n ≤ c.outputs.length ∨ c.outputRest = .ok)

/-- The output device answers Ok to its next `n` calls and Fail to the one after. -/
abbrev FailsAfter (c : Console) (n : Nat) : Prop :=
  (∀ a ∈ c.outputs.take n, a = OutputAnswer.ok) ∧ c.outputs[n]? = some .fail

/-- The output device answers Ok to its next `n` calls and never answers the one after. -/
abbrev SilentAfter (c : Console) (n : Nat) : Prop :=
  (∀ a ∈ c.outputs, a = OutputAnswer.ok) ∧ c.outputs.length = n ∧ c.outputRest = .silent

/-- The output device answers Ok to every call for ever. -/
abbrev AcceptsForEver (c : Console) : Prop :=
  (∀ a ∈ c.outputs, a = OutputAnswer.ok) ∧ c.outputRest = .ok

/-- The console after Ok answers to calls that wrote `codes`. -/
def wrote (c : Console) (codes : List Byte) : Console :=
  { c with outputs := c.outputs.drop codes.length, written := c.written ++ codes }

/-- The console after Ok answers to calls that wrote `codes`, then one Fail. -/
def wroteThenFailed (c : Console) (codes : List Byte) : Console :=
  { c with outputs := c.outputs.drop (codes.length + 1), written := c.written ++ codes }

/-- The address of word `k` of a string that starts at R0 (R186, R188). -/
def stringAddress (s : State) (k : Nat) : Word := s.reg 0 + BitVec.ofNat 16 k

/-- Word `k` of a string that starts at R0. -/
def stringWord (s : State) (k : Nat) : Word := s.memRead (stringAddress s k)

/-- The first `n` codes of a PUTS string: the low byte of each word (R186). -/
def putsCodes (s : State) (n : Nat) : List Byte := (List.range n).map fun k => lowByte (stringWord s k)

/-- Character `j` of a packed string that starts at R0: two to a word, low byte first (R188). -/
def packedChar (s : State) (j : Nat) : Byte :=
  if j % 2 = 0 then lowByte (stringWord s (j / 2)) else highByte (stringWord s (j / 2))

/-- The first `n` codes of a PUTSP string (R188). -/
def putspCodes (s : State) (n : Nat) : List Byte := (List.range n).map (packedChar s)

/-- The record of a host I/O failure in the service of `vector` (R221), for the handler's state `s`. -/
def ioRecord (s : State) (vector : Byte) (device : Device) : IORecord :=
  { condition := .hostIOFailure, address := s.pc - 1, vector := vector, device := device }

/-! ## Bits of an instruction word -/

/-- The bits that some field of the word's format occupies, those of R77 left out. RTI and RES words are shown whole in
the fault record, and so count as occupied. -/
def occupiedBits (w : Word) : Word :=
  match decodeOpcode w with
  | .add | .and => if w.getLsbD 5 then 0xFFFF else 0xFFE7
  | .not => 0xFFC0
  | .jmp => 0xF1C0
  | .jsr => if w.getLsbD 11 then 0xFFFF else 0xF9C0
  | .trap => 0xF0FF
  | .br | .ld | .st | .ldr | .str | .ldi | .sti | .lea | .rti | .res => 0xFFFF

/-- What the assembler writes in the unoccupied bits (R81). -/
def canonicalIgnored (w : Word) : Word :=
  match decodeOpcode w with
  | .not => 0x003F
  | .br | .add | .ld | .st | .jsr | .and | .ldr | .str | .rti | .ldi | .sti | .jmp | .res | .lea | .trap => 0

/-- Whether the instruction writes COND (R31). -/
def updatesFlags : Instr → Bool
  | .add _ _ _ | .addImm _ _ _ | .and _ _ _ | .andImm _ _ _ | .not _ _ => true
  | .ld _ _ | .ldi _ _ | .ldr _ _ _ | .lea _ _ => true
  | .br _ _ | .jmp _ | .jsr _ | .jsrr _ => false
  | .st _ _ | .sti _ _ | .str _ _ _ => false
  | .trap _ _ | .rti _ | .res _ => false

/-- The general registers the instruction may write (the table of R21). -/
def regsWritten : Instr → List Reg
  | .add d _ _ | .addImm d _ _ | .and d _ _ | .andImm d _ _ | .not d _ => [d]
  | .ld d _ | .ldi d _ | .ldr d _ _ | .lea d _ => [d]
  | .jsr _ | .jsrr _ => [7]
  | .trap _ v => if v = 0x20 ∨ v = 0x23 then [0] else []
  | .br _ _ | .jmp _ | .st _ _ | .sti _ _ | .str _ _ _ | .rti _ | .res _ => []

/-- The address the instruction stores to, if it stores (R54), computed on the handler's state. -/
def storeAddress : Instr → State → Option Word
  | .st _ off, s => some (s.eaPcRel off)
  | .sti _ off, s => some (s.eaIndirect off)
  | .str _ b off, s => some (s.eaBase b off)
  | .add _ _ _, _ | .addImm _ _ _, _ | .and _ _ _, _ | .andImm _ _ _, _ | .not _ _, _ => none
  | .br _ _, _ | .jmp _, _ | .jsr _, _ | .jsrr _, _ => none
  | .ld _ _, _ | .ldi _ _, _ | .ldr _ _ _, _ | .lea _ _, _ => none
  | .trap _ _, _ | .rti _, _ | .res _, _ => none

/-- The word the instruction stores, if it stores (R163). -/
def storedWord : Instr → State → Option Word
  | .st r _, s | .sti r _, s | .str r _ _, s => some (s.reg r)
  | .add _ _ _, _ | .addImm _ _ _, _ | .and _ _ _, _ | .andImm _ _ _, _ | .not _ _, _ => none
  | .br _ _, _ | .jmp _, _ | .jsr _, _ | .jsrr _, _ => none
  | .ld _ _, _ | .ldi _ _, _ | .ldr _ _ _, _ | .lea _ _, _ => none
  | .trap _ _, _ | .rti _, _ | .res _, _ => none

/-- PC after the instruction, by the table of R24, on the handler's state, whose PC is a + 1. -/
def pcAfter : Instr → State → Word
  | .br m off, s => if m &&& s.cond.bits = 0 then s.pc else s.pc + off.signExtend 16
  | .jmp b, s => s.reg b
  | .jsr off, s => s.pc + off.signExtend 16
  | .jsrr b, s => if b = 7 then s.pc else s.reg b
  | .add _ _ _, s | .addImm _ _ _, s | .and _ _ _, s | .andImm _ _ _, s | .not _ _, s => s.pc
  | .ld _ _, s | .ldi _ _, s | .ldr _ _ _, s | .lea _ _, s => s.pc
  | .st _ _, s | .sti _ _, s | .str _ _ _, s => s.pc
  | .trap _ _, s | .rti _, s | .res _, s => s.pc

/-- An outcome with its next state changed by `f`; a fault or a refusal stays. -/
def mapNext (f : State → State) : Out → Out
  | .next t => .next (f t)
  | .fault r => .fault r
  | .refused r => .refused r

/-! ## The invariant -/

/-- The vectors whose service calls a device (R182, R183). -/
def deviceVectors : Device → List Byte
  | .input => [0x20, 0x23]
  | .output => [0x21, 0x22, 0x23, 0x24]

/-- What a status says of the rest of the state. PC is one past the instruction that stopped the machine; the record of
a fatal condition holds that instruction's address and word, its opcode, and the vector for code 2 only, and the word
is illegal; a host I/O failure and a halt were raised by the TRAP they name (R189, R221, R222, R223). -/
def StatusTrue (s : State) : Prop :=
  match s.status with
  | .running => True
  | .halted => ∃ u, decodeWord (s.memRead (s.pc - 1)) = .trap u 0x25
  | .faulted r =>
    r.address = s.pc - 1 ∧ r.word = s.memRead r.address ∧ r.opcode = r.word.extractLsb' 12 4 ∧
    (decodeWord r.word).wellFormed = false ∧
    ((r.condition = .illFormedInstruction ∧ (r.opcode = 8 ∨ r.opcode = 13) ∧ r.vector = none) ∨
     (r.condition = .unrecognizedTrapVector ∧ r.opcode = 15 ∧ r.vector = some (r.word.extractLsb' 0 8)))
  | .ioFailed r =>
    r.address = s.pc - 1 ∧ r.condition = .hostIOFailure ∧
    (∃ u, decodeWord (s.memRead r.address) = .trap u r.vector) ∧ r.vector ∈ deviceVectors r.device

/-- The invariant: memory is in its canonical form, and the status tells the truth about the machine. -/
structure Inv (s : State) : Prop where
  memory : s.mem.wf = true
  status : StatusTrue s

end Sys2Proof.Safety
end

