-- ==== Sys2Proof/Certificates/Slice0/Obligations.lean ====
section
/-! DEFINITION. The statements for the provers. A handler's state `s` is the one after the fetch increment, so `s.pc` is
a + 1 there (30_encoding.md R82); in the statements about `step`, `s` is the state before the fetch. -/

open Sys2Proof Sys2Proof.Machine Sys2Proof.Safety

/-! ## Machine start and the invariant -/

/-- R37 to R40, R250: at machine start PC is PC_START (default 0x3000), COND is Z, each Ri holds GPR_INIT(i), memory
holds MEM_INIT and the status is Running; an image that is loaded moves PC to its origin. R252: a reset by the caller,
from any state, is a new machine start. -/
def Obligations.MachineStartValues : Prop :=
  (∀ (params : Config.Params) (memInit : Memory) (console : Console),
    let s := State.start params memInit console
    s.pc = params.pcStart ∧ s.cond = .z ∧ s.cond.bits = 0b010 ∧ s.status = .running ∧
      (∀ r : Reg, s.reg r = params.gprInit[r.toNat]'r.isLt) ∧ (∀ a, s.memRead a = memInit.readWord a) ∧
      (∀ (origin : Word) (words : List Word) (t : State),
        s.loadImage (origin :: words) = .next t → t.pc = origin ∧ t.status = .running ∧ t.cond = .z) ∧
      (∀ u : State, u.resetByCaller params memInit console = s)) ∧
  State.reset.pc = 0x3000

/-- The invariant holds at machine reset. -/
def Obligations.ResetMeetsInvariant : Prop := Inv State.reset

/-- Every step keeps the invariant, from every state that meets it: memory stays canonical, and the status stays true of
the machine (R189, R221, R222, R223). -/
def Obligations.StepKeepsInvariant : Prop := ∀ s t : State, Inv s → step s = .next t → Inv t

/-! ## Encoding -/

/-- Decoding an encoded instruction gives it back, for every instruction with every operand; from bytes too. -/
def Obligations.DecodeOfEncode : Prop :=
  ∀ i : Instr, decodeWord (encode i) = i ∧
    ∀ rest : List Byte, decode (encodeBytes i ++ rest) = .ok (i, rest)

/-- Encoding a decoded word gives the word back in every occupied bit, and the assembler's value in every ignored bit
(R77, R81). TRAP keeps its unused bits, for the fault record. -/
def Obligations.EncodeOfDecode : Prop :=
  ∀ w : Word, (encode (decodeWord w)) &&& occupiedBits w = w &&& occupiedBits w ∧
    (decodeOpcode w ≠ .trap → encode (decodeWord w) = (w &&& occupiedBits w) ||| canonicalIgnored w)

/-- R77: two words that agree in every bit some field occupies have the same effect in every state. With an undefined
trap vector both stop in the same way, and only the fault record shows which word it was. -/
def Obligations.IgnoredBitsHaveNoEffect : Prop :=
  ∀ (w w' : Word) (s : State), w &&& occupiedBits w = w' &&& occupiedBits w →
    ((decodeWord w).wellFormed = true ∨ decodeOpcode w ≠ .trap → exec (decodeWord w) s = exec (decodeWord w') s) ∧
    ((decodeWord w).wellFormed = false → ∃ r r',
      exec (decodeWord w) s = .next { s with status := .faulted r } ∧
      exec (decodeWord w') s = .next { s with status := .faulted r' })

/-- R71: the opcode is bits [15:12]. Each decoded form's opcode value is those bits, one word is two bytes, and no
instruction is longer or shorter. -/
def Obligations.OpcodeIsTopFourBits : Prop :=
  (∀ w : Word, opcodeValue (instrOpcode (decodeWord w)) = w.extractLsb' 12 4) ∧
  (∀ (hi lo : Byte) (rest : List Byte), ∃ i, decode (hi :: lo :: rest) = .ok (i, rest) ∧
    opcodeValue (instrOpcode i) = hi.extractLsb' 4 4) ∧
  (∀ b : Byte, decode [b] = .error (.truncated 1)) ∧ decode [] = .error (.truncated 0)

/-- R78: exactly the RTI words, the RES words and the TRAP words with a vector outside 0x20 to 0x25 raise a fatal
condition. -/
def Obligations.IllegalEncodingsExactly : Prop :=
  ∀ (w : Word) (s : State), s.status = .running →
    ((∃ t r, exec (decodeWord w) s = .next t ∧ t.status = .faulted r) ↔
      (w.extractLsb' 12 4 = 0b1000 ∨ w.extractLsb' 12 4 = 0b1101 ∨
        (w.extractLsb' 12 4 = 0b1111 ∧ ¬ (0x20 ≤ (w.extractLsb' 0 8).toNat ∧ (w.extractLsb' 0 8).toNat ≤ 0x25))))

/-- A few words written out from the encodings of R73 and R75 decode to the instructions they stand for. -/
def Obligations.WrittenWordsDecode : Prop :=
  decodeWord 0b0001000001000010 = .add 0 1 2 ∧ decodeWord 0b0001001001111110 = .addImm 1 1 0b11110 ∧
  decodeWord 0b0000001000000010 = .br 0b001 2 ∧ decodeWord 0b0100100000000101 = .jsr 5 ∧
  decodeWord 0b0110100101111111 = .ldr 4 5 0b111111 ∧ decodeWord 0b1011000000000001 = .sti 0 1 ∧
  decodeWord 0b1111111100100101 = .trap 0b1111 0x25 ∧ decodeWord 0b1000000000000000 = .rti 0

/-! ## The step and its ports -/

/-- R82, R85: a running machine executes the instruction that the bytes at PC decode to, on the state with PC one
further; every pair of bytes decodes. The two bytes of a word stand in the model's cells (log 6). -/
def Obligations.StepRunsDecodedInstruction : Prop :=
  ∀ s : State, s.status = .running →
    (∀ (i : Instr) (rest : List Byte),
      decode [s.mem.readByte (highCell s.pc), s.mem.readByte (lowCell s.pc)] = .ok (i, rest) →
        step s = exec i { s with pc := s.pc + 1 }) ∧
    step s = exec (decodeWord (s.memRead s.pc)) { s with pc := s.pc + 1 }

/-- R83: the step port answers true exactly when the status after the step is Running, and a stopped machine does not
change. -/
def Obligations.TerminalStatusIsFinal : Prop :=
  (∀ s t : State, step s = .next t → stepPort s = .next (t, decide (t.status = .running))) ∧
  (∀ s : State, s.status ≠ .running → step s = .next s ∧ stepPort s = .next (s, false))

/-- R45: the run port returns with a state exactly when some number of steps reaches that state and its status is
terminal; it needs no more fuel than that number of steps and one. So a run that never reaches a terminal status does
not return. The fuel is the model's (log 13). -/
def Obligations.RunReturnsOnlyStopped : Prop :=
  ∀ s t : State,
    ((∃ fuel, runPort fuel s = some (.next t)) ↔
      t.status ≠ .running ∧ ∃ k, Host.Core.run Sys2Proof.core k s = .next t) ∧
    (∀ k, Host.Core.run Sys2Proof.core k s = .next t → t.status ≠ .running →
      runPort (k + 1) s = some (.next t))

/-- R27, R46: the host reads back what it writes, and a COND value without exactly one flag is turned away (log 10). -/
def Obligations.HostAccessReadsBack : Prop :=
  ∀ s : State,
    (∀ (r : Reg) (v : Word), (s.hostWriteReg r v).hostReadReg r = v ∧ (s.hostWriteReg r v).cond = s.cond) ∧
    (∀ v : Word, (s.hostWritePc v).hostReadPc = v) ∧
    (∀ a v : Word, (s.hostWriteMem a v).hostReadMem a = v) ∧
    (∀ b : BitVec 3, b = 0b100 ∨ b = 0b010 ∨ b = 0b001 →
      ∃ t, s.hostWriteCond b = .next t ∧ t.hostReadCond = b ∧ t.regs = s.regs ∧ t.pc = s.pc ∧ t.mem = s.mem) ∧
    (∀ b : BitVec 3, ¬ (b = 0b100 ∨ b = 0b010 ∨ b = 0b001) → s.hostWriteCond b = .refused .notOneFlag)

/-- R251: the loader copies the words consecutively from the origin and sets PC to it; it turns away an image that does
not fit above its origin, and a byte stream of odd length; a byte stream is read with the first byte of each pair as
bits [15:8]. -/
def Obligations.LoaderPlacesImage : Prop :=
  ∀ s : State,
    (∀ (origin : Word) (words : List Word), origin.toNat + words.length ≤ 65536 →
      ∃ t, s.loadImage (origin :: words) = .next t ∧ t.pc = origin ∧
        (∀ (k : Nat) (h : k < words.length), t.memRead (origin + BitVec.ofNat 16 k) = words[k]) ∧
        (∀ a : Word, (∀ k < words.length, a ≠ origin + BitVec.ofNat 16 k) → t.memRead a = s.memRead a) ∧
        KeepsRegsBut s t [] ∧ t.cond = s.cond ∧ KeepsRest s t) ∧
    (∀ (origin : Word) (words : List Word), 65536 < origin.toNat + words.length →
      s.loadImage (origin :: words) = .refused .imageTooLong) ∧
    (∀ bytes : List Byte, bytes.length % 2 = 1 → s.loadImageBytes bytes = .refused .imageHasOddBytes) ∧
    (∀ words : List Word,
      s.loadImageBytes (words.flatMap fun w => [w.extractLsb' 8 8, w.extractLsb' 0 8]) = s.loadImage words)

/-! ## Memory, extension and flags -/

/-- R51, R52: a written word is read back, and no other word changes. -/
def Obligations.MemoryWriteThenRead : Prop :=
  ∀ (m : Memory) (a v : Word), (m.writeWord a v).readWord a = v ∧
    ∀ b : Word, b ≠ a → (m.writeWord a v).readWord b = m.readWord b

/-- Two memories in canonical form that read alike at every address are the same data (log 6). -/
def Obligations.CanonicalMemoriesEqual : Prop :=
  ∀ m m' : Memory, m.wf = true → m'.wf = true → (∀ a : Word, m.readWord a = m'.readWord a) → m = m'

/-- R8: the sign extension of an n-bit field. -/
def Obligations.SignExtensionFormula : Prop :=
  ∀ (n : Nat), 0 < n → n ≤ 16 → ∀ f : BitVec n,
    (sext f).toNat = (if f.getLsbD (n - 1) then f.toNat + (65536 - 2 ^ n) else f.toNat) ∧ (sext f).toInt = f.toInt

/-- R53, R144: the three addressing modes, as sums modulo 65,536 of a base and a signed offset. -/
def Obligations.AddressesWrap : Prop :=
  ∀ s : State,
    (∀ off : BitVec 9, ((s.eaPcRel off).toNat : Int) = ((s.pc.toNat : Int) + off.toInt) % 65536) ∧
    (∀ (b : Reg) (off : BitVec 6), ((s.eaBase b off).toNat : Int) = (((s.reg b).toNat : Int) + off.toInt) % 65536) ∧
    (∀ (off : BitVec 9) (a : Word), (a.toNat : Int) = ((s.pc.toNat : Int) + off.toInt) % 65536 →
      s.eaIndirect off = s.memRead a)

/-- R30: `SetCC(v)` writes COND, and COND alone, with the flag of `v`, one of three one-bit values. -/
def Obligations.SetCCWritesTheFlag : Prop :=
  ∀ (s : State) (v : Word), FlagOf v (condOf v) ∧ s.setCC v = { s with cond := condOf v } ∧
    ((condOf v).bits = 0b100 ∨ (condOf v).bits = 0b010 ∨ (condOf v).bits = 0b001)

/-! ## Operate instructions -/

/-- R100. -/
def Obligations.AddWritesSum : Prop :=
  (∀ w : Word, w &&& 0xF020 = 0x1000 →
    decodeWord w = .add (w.extractLsb' 9 3) (w.extractLsb' 6 3) (w.extractLsb' 0 3)) ∧
  ∀ (dr sr1 sr2 : Reg) (s : State),
    WritesResult s dr (BitVec.ofNat 16 ((s.reg sr1).toNat + (s.reg sr2).toNat)) (exec (.add dr sr1 sr2) s)

/-- R101. -/
def Obligations.AddImmWritesSum : Prop :=
  (∀ w : Word, w &&& 0xF020 = 0x1020 →
    decodeWord w = .addImm (w.extractLsb' 9 3) (w.extractLsb' 6 3) (w.extractLsb' 0 5)) ∧
  ∀ (dr sr1 : Reg) (imm5 : BitVec 5) (s : State),
    WritesResult s dr (s.reg sr1 + imm5.signExtend 16) (exec (.addImm dr sr1 imm5) s)

/-- R102. -/
def Obligations.AndWritesConjunction : Prop :=
  (∀ w : Word, w &&& 0xF020 = 0x5000 →
    decodeWord w = .and (w.extractLsb' 9 3) (w.extractLsb' 6 3) (w.extractLsb' 0 3)) ∧
  ∀ (dr sr1 sr2 : Reg) (s : State),
    WritesResult s dr (s.reg sr1 &&& s.reg sr2) (exec (.and dr sr1 sr2) s)

/-- R103. -/
def Obligations.AndImmWritesConjunction : Prop :=
  (∀ w : Word, w &&& 0xF020 = 0x5020 →
    decodeWord w = .andImm (w.extractLsb' 9 3) (w.extractLsb' 6 3) (w.extractLsb' 0 5)) ∧
  ∀ (dr sr1 : Reg) (imm5 : BitVec 5) (s : State),
    WritesResult s dr (s.reg sr1 &&& imm5.signExtend 16) (exec (.andImm dr sr1 imm5) s)

/-- R104. -/
def Obligations.NotWritesComplement : Prop :=
  (∀ w : Word, w &&& 0xF000 = 0x9000 → decodeWord w = .not (w.extractLsb' 9 3) (w.extractLsb' 6 3)) ∧
  ∀ (dr sr : Reg) (s : State), WritesResult s dr (~~~ (s.reg sr)) (exec (.not dr sr) s)

/-! ## Control transfers -/

/-- R120: the branch is taken exactly when the mask bit of the flag that COND holds is 1. -/
def Obligations.BranchGoesByMask : Prop :=
  (∀ w : Word, w &&& 0xF000 = 0x0000 → decodeWord w = .br (w.extractLsb' 9 3) (w.extractLsb' 0 9)) ∧
  ∀ (mask : BitVec 3) (off : BitVec 9) (s : State),
    TransfersTo s
      (if (mask.getLsbD 2 ∧ s.cond = .n) ∨ (mask.getLsbD 1 ∧ s.cond = .z) ∨ (mask.getLsbD 0 ∧ s.cond = .p)
        then s.pc + off.signExtend 16 else s.pc)
      none (exec (.br mask off) s)

/-- R121. -/
def Obligations.JmpGoesToBase : Prop :=
  (∀ w : Word, w &&& 0xF000 = 0xC000 → decodeWord w = .jmp (w.extractLsb' 6 3)) ∧
  ∀ (baseR : Reg) (s : State), TransfersTo s (s.reg baseR) none (exec (.jmp baseR) s)

/-- R122. -/
def Obligations.JsrLinksAndGoes : Prop :=
  (∀ w : Word, w &&& 0xF800 = 0x4800 → decodeWord w = .jsr (w.extractLsb' 0 11)) ∧
  ∀ (off : BitVec 11) (s : State), TransfersTo s (s.pc + off.signExtend 16) (some s.pc) (exec (.jsr off) s)

/-- R123: with base R7 the target is the new R7, a + 1. -/
def Obligations.JsrrLinksThenReadsBase : Prop :=
  (∀ w : Word, w &&& 0xF800 = 0x4000 → decodeWord w = .jsrr (w.extractLsb' 6 3)) ∧
  ∀ (baseR : Reg) (s : State),
    TransfersTo s (if baseR = 7 then s.pc else s.reg baseR) (some s.pc) (exec (.jsrr baseR) s)

/-! ## Loads and stores -/

/-- R140. -/
def Obligations.LdReadsPcRelative : Prop :=
  (∀ w : Word, w &&& 0xF000 = 0x2000 → decodeWord w = .ld (w.extractLsb' 9 3) (w.extractLsb' 0 9)) ∧
  ∀ (dr : Reg) (off : BitVec 9) (s : State),
    WritesResult s dr (s.memRead (s.pc + off.signExtend 16)) (exec (.ld dr off) s)

/-- R141. -/
def Obligations.LdiReadsThroughPointer : Prop :=
  (∀ w : Word, w &&& 0xF000 = 0xA000 → decodeWord w = .ldi (w.extractLsb' 9 3) (w.extractLsb' 0 9)) ∧
  ∀ (dr : Reg) (off : BitVec 9) (s : State),
    WritesResult s dr (s.memRead (s.memRead (s.pc + off.signExtend 16))) (exec (.ldi dr off) s)

/-- R142. -/
def Obligations.LdrReadsBasePlusOffset : Prop :=
  (∀ w : Word, w &&& 0xF000 = 0x6000 →
    decodeWord w = .ldr (w.extractLsb' 9 3) (w.extractLsb' 6 3) (w.extractLsb' 0 6)) ∧
  ∀ (dr baseR : Reg) (off : BitVec 6) (s : State),
    WritesResult s dr (s.memRead (s.reg baseR + off.signExtend 16)) (exec (.ldr dr baseR off) s)

/-- R143. -/
def Obligations.LeaWritesAddress : Prop :=
  (∀ w : Word, w &&& 0xF000 = 0xE000 → decodeWord w = .lea (w.extractLsb' 9 3) (w.extractLsb' 0 9)) ∧
  ∀ (dr : Reg) (off : BitVec 9) (s : State),
    WritesResult s dr (s.pc + off.signExtend 16) (exec (.lea dr off) s)

/-- R160. -/
def Obligations.StStoresPcRelative : Prop :=
  (∀ w : Word, w &&& 0xF000 = 0x3000 → decodeWord w = .st (w.extractLsb' 9 3) (w.extractLsb' 0 9)) ∧
  ∀ (sr : Reg) (off : BitVec 9) (s : State),
    StoresWord s (s.eaPcRel off) (s.reg sr) (exec (.st sr off) s) ∧ s.eaPcRel off = s.pc + off.signExtend 16

/-- R161. -/
def Obligations.StiStoresThroughPointer : Prop :=
  (∀ w : Word, w &&& 0xF000 = 0xB000 → decodeWord w = .sti (w.extractLsb' 9 3) (w.extractLsb' 0 9)) ∧
  ∀ (sr : Reg) (off : BitVec 9) (s : State),
    StoresWord s (s.eaIndirect off) (s.reg sr) (exec (.sti sr off) s) ∧
      s.eaIndirect off = s.memRead (s.pc + off.signExtend 16)

/-- R162. -/
def Obligations.StrStoresBasePlusOffset : Prop :=
  (∀ w : Word, w &&& 0xF000 = 0x7000 →
    decodeWord w = .str (w.extractLsb' 9 3) (w.extractLsb' 6 3) (w.extractLsb' 0 6)) ∧
  ∀ (sr baseR : Reg) (off : BitVec 6) (s : State),
    StoresWord s (s.eaBase baseR off) (s.reg sr) (exec (.str sr baseR off) s) ∧
      s.eaBase baseR off = s.reg baseR + off.signExtend 16

/-- R66: a stored word is what every later fetch from its address executes, for as long as that address holds it; the
very next step executes it when it was stored to a + 1. -/
def Obligations.StoredWordIsFetched : Prop :=
  ∀ (s : State) (i : Instr) (ea v : Word), s.status = .running → decodeWord (s.memRead s.pc) = i →
    storeAddress i { s with pc := s.pc + 1 } = some ea → storedWord i s = some v →
    ∃ t, step s = .next t ∧
      (∀ u : State, u.memRead ea = t.memRead ea → u.status = .running → u.pc = ea →
        step u = exec (decodeWord v) { u with pc := ea + 1 }) ∧
      (ea = s.pc + 1 → step t = exec (decodeWord v) { t with pc := s.pc + 2 })

/-! ## TRAP and its services -/

/-- R180, R181: TRAP words, and the fixed table of the dispatcher. -/
def Obligations.TrapDispatchTable : Prop :=
  (∀ w : Word, w &&& 0xF000 = 0xF000 → decodeWord w = .trap (w.extractLsb' 8 4) (w.extractLsb' 0 8)) ∧
  ∀ (u : BitVec 4) (s : State),
    exec (.trap u 0x20) s = serviceGetc s ∧ exec (.trap u 0x21) s = serviceOut s ∧
    exec (.trap u 0x22) s = servicePuts s ∧ exec (.trap u 0x23) s = serviceIn s ∧
    exec (.trap u 0x24) s = servicePutsp s ∧ exec (.trap u 0x25) s = serviceHalt s

/-- R184: GETC, on each answer of the input device. -/
def Obligations.GetcStoresCode : Prop :=
  ∀ (u : BitVec 4) (s : State),
    (∀ (b : Byte) (rest : List InputAnswer), s.console.inputs = .char b :: rest →
      WritesR0 s (b.setWidth 16) { s.console with inputs := rest } (exec (.trap u 0x20) s)) ∧
    (∀ rest : List InputAnswer, s.console.inputs = .fail :: rest →
      exec (.trap u 0x20) s = .next { s with console := { s.console with inputs := rest }
                                             status := .ioFailed (ioRecord s 0x20 .input) })

/-- R192, R256 (c): a GETC whose input device does not answer does not complete, nor does an IN, whose prompt is then
written; nor an OUT whose output device never answers, nor an IN whose output device never answers a code of the prompt
or the echo. The faults, and what they carry, are the model's (logs 4, 5). -/
def Obligations.UnansweredCallsNeverComplete : Prop :=
  ∀ (u : BitVec 4) (s : State),
    (s.console.inputs = [] → exec (.trap u 0x20) s = .fault (.inputNotAnswered s.console.written)) ∧
    (s.console.inputs = [] → AcceptsCalls s.console s.inPrompt.length →
      exec (.trap u 0x23) s = .fault (.inputNotAnswered (s.console.written ++ s.inPrompt))) ∧
    (SilentAfter s.console 0 → exec (.trap u 0x21) s = .fault (.outputNotAnswered s.console.written)) ∧
    (∀ n < s.inPrompt.length, SilentAfter s.console n →
      exec (.trap u 0x23) s = .fault (.outputNotAnswered (s.console.written ++ s.inPrompt.take n))) ∧
    (∀ (b : Byte) (rest : List InputAnswer), s.console.inputs = .char b :: rest →
      SilentAfter s.console s.inPrompt.length →
      exec (.trap u 0x23) s = .fault (.outputNotAnswered (s.console.written ++ s.inPrompt)))

/-- R185: OUT, on each answer of the output device. -/
def Obligations.OutWritesLowByte : Prop :=
  ∀ (u : BitVec 4) (s : State),
    (AcceptsCalls s.console 1 →
      exec (.trap u 0x21) s = .next { s with console := wrote s.console [(s.reg 0).extractLsb' 0 8] }) ∧
    (FailsAfter s.console 0 →
      exec (.trap u 0x21) s = .next { s with console := wroteThenFailed s.console []
                                             status := .ioFailed (ioRecord s 0x21 .output) })

/-- R186: PUTS writes the low byte of each word up to the first zero word, and nothing else changes. -/
def Obligations.PutsWritesString : Prop :=
  ∀ (u : BitVec 4) (s : State) (n : Nat), (∀ k < n, stringWord s k ≠ 0) → stringWord s n = 0 →
    AcceptsCalls s.console n →
    exec (.trap u 0x22) s = .next { s with console := wrote s.console (putsCodes s n) }

/-- R186, R223: PUTS ends at the first failing call; what it wrote before remains. R192: at a call that is never answered
it does not complete; that fault is the model's (log 5). -/
def Obligations.PutsStopsAtFailure : Prop :=
  ∀ (u : BitVec 4) (s : State) (n : Nat), (∀ k ≤ n, stringWord s k ≠ 0) →
    (FailsAfter s.console n →
      exec (.trap u 0x22) s = .next { s with console := wroteThenFailed s.console (putsCodes s n)
                                             status := .ioFailed (ioRecord s 0x22 .output) }) ∧
    (SilentAfter s.console n →
      exec (.trap u 0x22) s = .fault (.outputNotAnswered (s.console.written ++ putsCodes s n)))

/-- R256 (b): a PUTS never ends exactly when no word of memory is zero and the output device accepts every call. The fault
is the model's (log 7). -/
def Obligations.PutsNeverEndsExactly : Prop :=
  ∀ (u : BitVec 4) (s : State), exec (.trap u 0x22) s = .fault .stringNeverEnds ↔
    (∀ a : Word, s.memRead a ≠ 0) ∧ AcceptsForEver s.console

/-- R187: IN prompts, reads, echoes and then writes R0. -/
def Obligations.InPromptsReadsEchoes : Prop :=
  ∀ (u : BitVec 4) (s : State) (b : Byte) (rest : List InputAnswer), s.console.inputs = .char b :: rest →
    AcceptsCalls s.console (s.inPrompt.length + 1) →
    WritesR0 s (b.setWidth 16) { wrote s.console (s.inPrompt ++ [b]) with inputs := rest } (exec (.trap u 0x23) s)

/-- R187, R223: an IN whose prompt, read or echo fails stops there and leaves R0 as it was. -/
def Obligations.InStopsAtFailure : Prop :=
  ∀ (u : BitVec 4) (s : State),
    (∀ n < s.inPrompt.length, FailsAfter s.console n →
      exec (.trap u 0x23) s = .next { s with console := wroteThenFailed s.console (s.inPrompt.take n)
                                             status := .ioFailed (ioRecord s 0x23 .output) }) ∧
    (∀ rest : List InputAnswer, AcceptsCalls s.console s.inPrompt.length → s.console.inputs = .fail :: rest →
      exec (.trap u 0x23) s = .next { s with console := { wrote s.console s.inPrompt with inputs := rest }
                                             status := .ioFailed (ioRecord s 0x23 .input) }) ∧
    (∀ (b : Byte) (rest : List InputAnswer), FailsAfter s.console s.inPrompt.length →
      s.console.inputs = .char b :: rest →
      exec (.trap u 0x23) s = .next { s with console := { wroteThenFailed s.console s.inPrompt with inputs := rest }
                                             status := .ioFailed (ioRecord s 0x23 .output) })

/-- R188: PUTSP writes the bytes of the words, low byte first, up to the first zero byte, and nothing else changes. -/
def Obligations.PutspWritesPackedString : Prop :=
  ∀ (u : BitVec 4) (s : State) (n : Nat), (∀ j < n, packedChar s j ≠ 0) → packedChar s n = 0 →
    AcceptsCalls s.console n →
    exec (.trap u 0x24) s = .next { s with console := wrote s.console (putspCodes s n) }

/-- R188, R223: PUTSP ends at the first failing call; what it wrote before remains. R192: at a call that is never
answered it does not complete; that fault is the model's (log 5). -/
def Obligations.PutspStopsAtFailure : Prop :=
  ∀ (u : BitVec 4) (s : State) (n : Nat), (∀ j ≤ n, packedChar s j ≠ 0) →
    (FailsAfter s.console n →
      exec (.trap u 0x24) s = .next { s with console := wroteThenFailed s.console (putspCodes s n)
                                             status := .ioFailed (ioRecord s 0x24 .output) }) ∧
    (SilentAfter s.console n →
      exec (.trap u 0x24) s = .fault (.outputNotAnswered (s.console.written ++ putspCodes s n)))

/-- R256 (b): a PUTSP never ends exactly when no byte of memory is zero and the output device accepts every call. The fault
is the model's (log 7). -/
def Obligations.PutspNeverEndsExactly : Prop :=
  ∀ (u : BitVec 4) (s : State), exec (.trap u 0x24) s = .fault .stringNeverEnds ↔
    (∀ a : Word, (s.memRead a).extractLsb' 0 8 ≠ 0 ∧ (s.memRead a).extractLsb' 8 8 ≠ 0) ∧ AcceptsForEver s.console

/-- R189: HALT changes nothing but the status; the step answers false. -/
def Obligations.HaltStops : Prop :=
  (∀ (u : BitVec 4) (s : State), exec (.trap u 0x25) s = .next { s with status := .halted }) ∧
  ∀ s : State, s.status = .running → s.memRead s.pc &&& 0xF0FF = 0xF025 →
    stepPort s = .next ({ s with pc := s.pc + 1, status := .halted }, false)

/-- R190: an unrecognised vector stops the machine, with the code 2, the address, the word, the opcode and the vector on
record (R221). -/
def Obligations.BadVectorIsFatal : Prop :=
  Condition.unrecognizedTrapVector.code = 2 ∧
  (∀ (u : BitVec 4) (v : Byte) (s : State), v.toNat < 0x20 ∨ 0x25 < v.toNat →
    exec (.trap u v) s =
      .next { s with status := .faulted ⟨.unrecognizedTrapVector, s.pc - 1, 0b1111#4 ++ u ++ v, 15, some v⟩ }) ∧
  ∀ (s : State) (w : Word), s.status = .running → s.memRead s.pc = w → w &&& 0xF000 = 0xF000 →
    (w.extractLsb' 0 8).toNat < 0x20 ∨ 0x25 < (w.extractLsb' 0 8).toNat →
    step s = .next { s with pc := s.pc + 1
                            status := .faulted ⟨.unrecognizedTrapVector, s.pc, w, 15, some (w.extractLsb' 0 8)⟩ }

/-- R191: a TRAP writes R0 for GETC and IN only, and never COND, PC, memory or another register. -/
def Obligations.TrapWritesNothingElse : Prop :=
  ∀ (u : BitVec 4) (v : Byte) (s t : State), exec (.trap u v) s = .next t →
    KeepsRegsBut s t (if v = 0x20 ∨ v = 0x23 then [0] else []) ∧ t.cond = s.cond ∧ t.pc = s.pc ∧
      KeepsMemory s t ∧ t.inPrompt = s.inPrompt

/-! ## Reserved opcodes, fatal conditions and failures -/

/-- R210, R211: every RTI word and every RES word stops the machine, with the code 1, its address, word and opcode on
record (R221). -/
def Obligations.ReservedOpcodesAreFatal : Prop :=
  Condition.illFormedInstruction.code = 1 ∧
  (∀ (u : BitVec 12) (s : State),
    exec (.rti u) s =
      .next { s with status := .faulted ⟨.illFormedInstruction, s.pc - 1, 0b1000#4 ++ u, 0b1000, none⟩ } ∧
    exec (.res u) s =
      .next { s with status := .faulted ⟨.illFormedInstruction, s.pc - 1, 0b1101#4 ++ u, 0b1101, none⟩ }) ∧
  ∀ (s : State) (w : Word), s.status = .running → s.memRead s.pc = w →
    (w &&& 0xF000 = 0x8000 →
      step s = .next { s with pc := s.pc + 1
                              status := .faulted ⟨.illFormedInstruction, s.pc, w, 0b1000, none⟩ }) ∧
    (w &&& 0xF000 = 0xD000 →
      step s = .next { s with pc := s.pc + 1
                              status := .faulted ⟨.illFormedInstruction, s.pc, w, 0b1101, none⟩ })

/-- R222: a step that ends in a fatal condition leaves the state before it, but for PC = a + 1 and the status. -/
def Obligations.FatalChangesNothingElse : Prop :=
  ∀ (s t : State) (r : FaultRecord), s.status = .running → step s = .next t → t.status = .faulted r →
    t = { s with pc := s.pc + 1, status := .faulted r } ∧ stepPort s = .next (t, false)

/-- R220, R223: a host I/O failure is raised by a trap service alone; it leaves every register, COND, memory and the
output written before it, and its record names the instruction's address, the vector and the device. -/
def Obligations.IOFailureIsPrecise : Prop :=
  ∀ (s t : State) (r : IORecord), s.status = .running → step s = .next t → t.status = .ioFailed r →
    (∃ u, decodeWord (s.memRead s.pc) = .trap u r.vector) ∧ r.vector ∈ deviceVectors r.device ∧
      r.address = s.pc ∧ r.condition.code = 3 ∧
      t = { s with pc := s.pc + 1, status := .ioFailed r, console := t.console } ∧
      (∃ codes, t.console.written = s.console.written ++ codes) ∧ stepPort s = .next (t, false)

/-! ## Rules of the whole machine -/

/-- R31: the seven flag-updating instructions set COND from the value they write to DR; no other writes COND. -/
def Obligations.CondWrittenOnlyByFlagUpdaters : Prop :=
  ∀ (i : Instr) (s t : State), exec i s = .next t →
    (updatesFlags i = true → ∃ dr, regsWritten i = [dr] ∧ FlagOf (t.reg dr) t.cond) ∧
    (updatesFlags i = false → t.cond = s.cond)

/-- R32: only BR reads COND. For every other instruction, another COND before changes nothing after but a COND that the
instruction does not write. -/
def Obligations.OnlyBranchReadsCond : Prop :=
  ∀ (i : Instr) (s : State) (c : Cond), (∀ m off, i ≠ .br m off) →
    exec i { s with cond := c } =
      mapNext (fun t => if updatesFlags i then t else { t with cond := c }) (exec i s)

/-- R24: PC after each instruction. -/
def Obligations.PcAfterInstruction : Prop :=
  ∀ (i : Instr) (s t : State), exec i s = .next t → t.pc = pcAfter i s

/-- R21: each instruction writes only the general registers of the table. -/
def Obligations.RegistersWrittenAsTabled : Prop :=
  ∀ (i : Instr) (s t : State), exec i s = .next t → KeepsRegsBut s t (regsWritten i)

/-- R52, R54: only ST, STI and STR write memory, and each writes the one word at its effective address. -/
def Obligations.OnlyStoresWriteMemory : Prop :=
  ∀ (i : Instr) (s t : State), exec i s = .next t →
    (storeAddress i s = none → t.mem = s.mem) ∧
    (∀ ea, storeAddress i s = some ea →
      ∀ k, k ≠ highCell ea → k ≠ lowCell ea → t.mem.readByte k = s.mem.readByte k)

/-- R43: no instruction but TRAP calls a device. -/
def Obligations.OnlyTrapCallsDevices : Prop :=
  ∀ (i : Instr) (s t : State), exec i s = .next t → (∀ u v, i ≠ .trap u v) → t.console = s.console
end

