-- ==== Sys2Proof/Laws/Decode.lean ====
section
/-! SUPPORT. The opcode map as a bijection between the sixteen opcodes and the values of bits [15:12] (R71, R75). -/

namespace Sys2Proof

/-- The decoded opcode has the value of bits [15:12]. -/
theorem opcodeValue_decodeOpcode (w : Word) : opcodeValue (decodeOpcode w) = fieldOpcode w := by
  have h : fieldOpcode w = BitVec.ofNat 4 (8 * (w.getLsbD 15).toNat + 4 * (w.getLsbD 14).toNat +
      2 * (w.getLsbD 13).toNat + (w.getLsbD 12).toNat) := by
    apply BitVec.eq_of_getLsbD_eq
    intro j hj
    simp only [fieldOpcode, BitVec.getLsbD_extractLsb', hj, decide_true, Bool.true_and]
    have : j = 0 ∨ j = 1 ∨ j = 2 ∨ j = 3 := by omega
    rcases this with rfl | rfl | rfl | rfl <;> cases h15 : w.getLsbD 15 <;> cases h14 : w.getLsbD 14 <;>
      cases h13 : w.getLsbD 13 <;> cases h12 : w.getLsbD 12 <;> simp_all
  rw [h]
  unfold decodeOpcode
  cases w.getLsbD 15 <;> cases w.getLsbD 14 <;> cases w.getLsbD 13 <;> cases w.getLsbD 12 <;> rfl

/-- No two opcodes share a value (R76). -/
theorem opcodeValue_injective {o o' : Opcode} (h : opcodeValue o = opcodeValue o') : o = o' := by
  revert h; cases o <;> cases o' <;> decide

/-- Which opcode a word decodes to, by its top four bits. -/
theorem decodeOpcode_eq_iff (w : Word) (op : Opcode) : decodeOpcode w = op ↔ fieldOpcode w = opcodeValue op := by
  rw [← opcodeValue_decodeOpcode]
  exact ⟨fun h => h ▸ rfl, opcodeValue_injective⟩

/-- Bit `j` of a placed field. -/
theorem getLsbD_place {n : Nat} (lo : Nat) (f : BitVec n) (j : Nat) :
    (place lo f).getLsbD j = (decide (j < 16) && (decide (lo ≤ j) && f.getLsbD (j - lo))) := by
  by_cases hj : j < 16 <;> by_cases hl : lo ≤ j <;> simp [place, hj, hl, Nat.not_lt.mpr, Nat.not_le.mp]

end Sys2Proof
end

