-- ==== Sys2Proof/Laws/Memory.lean ====
section
/-! SUPPORT. Memory: reading a byte cell after writing one, and the canonical form, which every operation keeps. -/

namespace Sys2Proof.Machine

/-! ## Reads after writes, cell by cell -/

@[simp] theorem lookupCell_eraseCell_self (k : Nat) (l : List Host.Cell) :
    lookupCell k (eraseCell k l) = Config.unlistedByte := by
  induction l with
  | nil => rfl
  | cons c l ih => rcases c with ⟨k', b⟩; by_cases h : k' = k <;> simp [eraseCell, lookupCell, h, ih]

theorem lookupCell_eraseCell_of_ne {k j : Nat} (h : j ≠ k) (l : List Host.Cell) :
    lookupCell j (eraseCell k l) = lookupCell j l := by
  induction l with
  | nil => rfl
  | cons c l ih =>
    rcases c with ⟨k', b⟩
    by_cases hk : k' = k
    · subst hk; simp [eraseCell, lookupCell, ih, Ne.symm h]
    · simp [eraseCell, lookupCell, hk, ih]

theorem lookupCell_insertCell_of_ne {k j : Nat} (h : j ≠ k) (b : Byte) (l : List Host.Cell) :
    lookupCell j (insertCell k b l) = lookupCell j l := by
  induction l with
  | nil => simp [insertCell, lookupCell, Ne.symm h]
  | cons c l ih =>
    rcases c with ⟨k', b'⟩
    by_cases hk : k < k' <;> simp [insertCell, lookupCell, hk, ih, Ne.symm h]

theorem lookupCell_insertCell_eraseCell (k : Nat) (b : Byte) (l : List Host.Cell) :
    lookupCell k (insertCell k b (eraseCell k l)) = b := by
  induction l with
  | nil => simp [eraseCell, insertCell, lookupCell]
  | cons c l ih =>
    rcases c with ⟨k', b'⟩
    by_cases hk : k' = k
    · simpa [eraseCell, hk] using ih
    · by_cases hlt : k < k' <;> simp [eraseCell, insertCell, lookupCell, hk, hlt, ih]

@[simp] theorem Memory.readByte_writeByte_self (m : Memory) (k : Nat) (b : Byte) :
    (m.writeByte k b).readByte k = b := by
  by_cases h : b = Config.unlistedByte <;>
    simp [Memory.writeByte, Memory.readByte, h, lookupCell_insertCell_eraseCell]

theorem Memory.readByte_writeByte_of_ne (m : Memory) {k j : Nat} (h : j ≠ k) (b : Byte) :
    (m.writeByte k b).readByte j = m.readByte j := by
  by_cases hb : b = Config.unlistedByte <;>
    simp [Memory.writeByte, Memory.readByte, hb, lookupCell_insertCell_of_ne h, lookupCell_eraseCell_of_ne h]

/-- What a word write does to every byte cell. -/
theorem Memory.readByte_writeWord (m : Memory) (a v : Word) (k : Nat) :
    (m.writeWord a v).readByte k =
      if k = highCell a then highByte v else if k = lowCell a then lowByte v else m.readByte k := by
  by_cases hl : k = lowCell a
  · have : k ≠ highCell a := by simp only [hl, lowCell, highCell]; omega
    subst hl
    simp [Memory.writeWord, this]
  · by_cases hh : k = highCell a
    · subst hh
      simp [Memory.writeWord, Memory.readByte_writeByte_of_ne _ hl]
    · simp [Memory.writeWord, Memory.readByte_writeByte_of_ne _ hl, Memory.readByte_writeByte_of_ne _ hh, hl, hh]

/-! ## The canonical form -/

theorem eraseCell_ne (k : Nat) (l : List Host.Cell) : ∀ c ∈ eraseCell k l, c.1 ≠ k := by
  induction l with
  | nil => simp [eraseCell]
  | cons c l ih =>
    rcases c with ⟨k', b⟩
    by_cases hk : k' = k
    · simpa [eraseCell, hk] using ih
    · simpa [eraseCell, hk] using ih

/-- The canonical form in words: cells strictly rising, each within the address space, none at the unlisted value. -/
theorem Memory.wf_iff (m : Memory) :
    m.wf = true ↔ m.cells.Pairwise (fun c d => c.1 < d.1) ∧
      ∀ c ∈ m.cells, c.1 < Config.cellCount ∧ c.2 ≠ Config.unlistedByte := by
  have above : ∀ (l : List Host.Cell) (k : Nat), cellsAbove k l = true ↔
      l.Pairwise (fun c d => c.1 < d.1) ∧
        ∀ c ∈ l, k < c.1 ∧ c.1 < Config.cellCount ∧ c.2 ≠ Config.unlistedByte := by
    intro l
    induction l with
    | nil => simp [cellsAbove]
    | cons c l ih =>
      intro k
      rcases c with ⟨k', b⟩
      simp only [cellsAbove, Bool.and_eq_true, decide_eq_true_eq, ih, List.pairwise_cons, List.mem_cons,
        forall_eq_or_imp]
      constructor
      · rintro ⟨⟨⟨h1, h2⟩, h3⟩, h4, h5⟩
        exact ⟨⟨fun c hc => (h5 c hc).1, h4⟩, ⟨h1, h2, h3⟩,
          fun c hc => ⟨Nat.lt_trans h1 (h5 c hc).1, (h5 c hc).2⟩⟩
      · rintro ⟨⟨h1, h2⟩, ⟨h3, h4, h5⟩, h6⟩
        exact ⟨⟨⟨h3, h4⟩, h5⟩, h2, fun c hc => ⟨h1 c hc, (h6 c hc).2⟩⟩
  rcases m with ⟨_ | ⟨⟨k, b⟩, l⟩⟩
  · simp [Memory.wf]
  · simp only [Memory.wf, Bool.and_eq_true, decide_eq_true_eq, above, List.pairwise_cons, List.mem_cons,
      forall_eq_or_imp]
    constructor
    · rintro ⟨⟨h1, h2⟩, h3, h4⟩
      exact ⟨⟨fun c hc => (h4 c hc).1, h3⟩, ⟨h1, h2⟩, fun c hc => (h4 c hc).2⟩
    · rintro ⟨⟨h1, h2⟩, ⟨h3, h4⟩, h5⟩
      exact ⟨⟨h3, h4⟩, h2, fun c hc => ⟨h1 c hc, h5 c hc⟩⟩

theorem eraseCell_sublist (k : Nat) (l : List Host.Cell) : (eraseCell k l).Sublist l := by
  induction l with
  | nil => simp [eraseCell]
  | cons c l ih =>
    rcases c with ⟨k', b⟩
    by_cases hk : k' = k
    · simpa [eraseCell, hk] using ih.cons _
    · simpa [eraseCell, hk] using ih

theorem mem_insertCell {k : Nat} {b : Byte} {c : Host.Cell} {l : List Host.Cell} :
    c ∈ insertCell k b l ↔ c = (k, b) ∨ c ∈ l := by
  induction l with
  | nil => simp [insertCell]
  | cons d l ih =>
    rcases d with ⟨k', b'⟩
    by_cases h : k < k'
    · simp [insertCell, h]
    · simp only [insertCell, h, if_false, List.mem_cons, ih]
      tauto

theorem insertCell_pairwise {k : Nat} {b : Byte} : ∀ {l : List Host.Cell},
    l.Pairwise (fun c d => c.1 < d.1) → (∀ c ∈ l, c.1 ≠ k) →
      (insertCell k b l).Pairwise (fun c d => c.1 < d.1)
  | [], _, _ => by simp [insertCell]
  | (k', b') :: l, hp, hne => by
    rw [List.pairwise_cons] at hp
    by_cases h : k < k'
    · rw [insertCell, if_pos h, List.pairwise_cons, List.pairwise_cons]
      refine ⟨fun c hc => ?_, hp⟩
      rcases List.mem_cons.mp hc with rfl | hc
      · exact h
      · exact Nat.lt_trans h (hp.1 c hc)
    · have hk : k' < k := by
        have := hne (k', b') (by simp)
        simp only at this
        omega
      simp only [insertCell, h, if_false, List.pairwise_cons]
      refine ⟨fun c hc => ?_, insertCell_pairwise hp.2 (fun c hc => hne c (by simp [hc]))⟩
      rcases mem_insertCell.mp hc with rfl | hc
      · exact hk
      · exact hp.1 c hc

/-- A byte write within the address space keeps the canonical form. -/
theorem Memory.wf_writeByte {m : Memory} (h : m.wf = true) {k : Nat} (hk : k < Config.cellCount) (b : Byte) :
    (m.writeByte k b).wf = true := by
  rw [Memory.wf_iff] at h ⊢
  have hp := h.1.sublist (eraseCell_sublist k m.cells)
  have hm : ∀ c ∈ eraseCell k m.cells, c.1 < Config.cellCount ∧ c.2 ≠ Config.unlistedByte :=
    fun c hc => h.2 c ((eraseCell_sublist k m.cells).subset hc)
  by_cases hb : b = Config.unlistedByte
  · simpa only [Memory.writeByte, hb, if_true] using And.intro hp hm
  · simp only [Memory.writeByte, hb, if_false]
    refine ⟨insertCell_pairwise hp (eraseCell_ne k m.cells), fun c hc => ?_⟩
    rcases mem_insertCell.mp hc with rfl | hc
    · exact ⟨hk, hb⟩
    · exact hm c hc

theorem highCell_lt (a : Word) : highCell a < Config.cellCount := by
  have := a.isLt
  simp only [highCell, Config.cellCount]; omega

theorem lowCell_lt (a : Word) : lowCell a < Config.cellCount := by
  have := a.isLt
  simp only [lowCell, Config.cellCount]; omega

/-- A word write keeps the canonical form. -/
theorem Memory.wf_writeWord {m : Memory} (h : m.wf = true) (a v : Word) : (m.writeWord a v).wf = true :=
  Memory.wf_writeByte (Memory.wf_writeByte h (highCell_lt a) _) (lowCell_lt a) _

/-- The memory of the machine after reset is in canonical form. -/
theorem Memory.wf_reset : State.reset.mem.wf = true := rfl

end Sys2Proof.Machine
end

