-- ==== Sys2Proof/Laws/State.lean ====
section
/-! SUPPORT. The fields of a state after each named update, and reading a register after writing one. -/

namespace Sys2Proof.Machine

section
variable (s : State)

@[simp] theorem State.setReg_pc (r : Reg) (v : Word) : (s.setReg r v).pc = s.pc := rfl
@[simp] theorem State.setReg_cond (r : Reg) (v : Word) : (s.setReg r v).cond = s.cond := rfl
@[simp] theorem State.setReg_mem (r : Reg) (v : Word) : (s.setReg r v).mem = s.mem := rfl
@[simp] theorem State.setReg_status (r : Reg) (v : Word) : (s.setReg r v).status = s.status := rfl
@[simp] theorem State.setReg_inPrompt (r : Reg) (v : Word) : (s.setReg r v).inPrompt = s.inPrompt := rfl
@[simp] theorem State.setReg_console (r : Reg) (v : Word) : (s.setReg r v).console = s.console := rfl

@[simp] theorem State.setPc_regs (t : Word) : (s.setPc t).regs = s.regs := rfl
@[simp] theorem State.setPc_pc (t : Word) : (s.setPc t).pc = t := rfl
@[simp] theorem State.setPc_cond (t : Word) : (s.setPc t).cond = s.cond := rfl
@[simp] theorem State.setPc_mem (t : Word) : (s.setPc t).mem = s.mem := rfl
@[simp] theorem State.setPc_status (t : Word) : (s.setPc t).status = s.status := rfl
@[simp] theorem State.setPc_inPrompt (t : Word) : (s.setPc t).inPrompt = s.inPrompt := rfl
@[simp] theorem State.setPc_console (t : Word) : (s.setPc t).console = s.console := rfl

@[simp] theorem State.setCond_regs (c : Cond) : (s.setCond c).regs = s.regs := rfl
@[simp] theorem State.setCond_pc (c : Cond) : (s.setCond c).pc = s.pc := rfl
@[simp] theorem State.setCond_cond (c : Cond) : (s.setCond c).cond = c := rfl
@[simp] theorem State.setCond_mem (c : Cond) : (s.setCond c).mem = s.mem := rfl
@[simp] theorem State.setCond_status (c : Cond) : (s.setCond c).status = s.status := rfl
@[simp] theorem State.setCond_inPrompt (c : Cond) : (s.setCond c).inPrompt = s.inPrompt := rfl
@[simp] theorem State.setCond_console (c : Cond) : (s.setCond c).console = s.console := rfl

@[simp] theorem State.memWrite_regs (a v : Word) : (s.memWrite a v).regs = s.regs := rfl
@[simp] theorem State.memWrite_pc (a v : Word) : (s.memWrite a v).pc = s.pc := rfl
@[simp] theorem State.memWrite_cond (a v : Word) : (s.memWrite a v).cond = s.cond := rfl
@[simp] theorem State.memWrite_mem (a v : Word) : (s.memWrite a v).mem = s.mem.writeWord a v := rfl
@[simp] theorem State.memWrite_status (a v : Word) : (s.memWrite a v).status = s.status := rfl
@[simp] theorem State.memWrite_inPrompt (a v : Word) : (s.memWrite a v).inPrompt = s.inPrompt := rfl
@[simp] theorem State.memWrite_console (a v : Word) : (s.memWrite a v).console = s.console := rfl

@[simp] theorem State.advancePc_regs : s.advancePc.regs = s.regs := rfl
@[simp] theorem State.advancePc_pc : s.advancePc.pc = s.pc + 1 := rfl
@[simp] theorem State.advancePc_cond : s.advancePc.cond = s.cond := rfl
@[simp] theorem State.advancePc_mem : s.advancePc.mem = s.mem := rfl
@[simp] theorem State.advancePc_status : s.advancePc.status = s.status := rfl
@[simp] theorem State.advancePc_inPrompt : s.advancePc.inPrompt = s.inPrompt := rfl
@[simp] theorem State.advancePc_console : s.advancePc.console = s.console := rfl

@[simp] theorem State.halt_regs : s.halt.regs = s.regs := rfl
@[simp] theorem State.halt_pc : s.halt.pc = s.pc := rfl
@[simp] theorem State.halt_cond : s.halt.cond = s.cond := rfl
@[simp] theorem State.halt_mem : s.halt.mem = s.mem := rfl
@[simp] theorem State.halt_status : s.halt.status = .halted := rfl
@[simp] theorem State.halt_inPrompt : s.halt.inPrompt = s.inPrompt := rfl
@[simp] theorem State.halt_console : s.halt.console = s.console := rfl

@[simp] theorem State.raiseIllFormed_regs (ir : Word) : (s.raiseIllFormed ir).regs = s.regs := rfl
@[simp] theorem State.raiseIllFormed_pc (ir : Word) : (s.raiseIllFormed ir).pc = s.pc := rfl
@[simp] theorem State.raiseIllFormed_cond (ir : Word) : (s.raiseIllFormed ir).cond = s.cond := rfl
@[simp] theorem State.raiseIllFormed_mem (ir : Word) : (s.raiseIllFormed ir).mem = s.mem := rfl
@[simp] theorem State.raiseIllFormed_status (ir : Word) :
    (s.raiseIllFormed ir).status = .faulted (s.faultRecord .illFormedInstruction ir none) := rfl
@[simp] theorem State.raiseIllFormed_inPrompt (ir : Word) : (s.raiseIllFormed ir).inPrompt = s.inPrompt := rfl
@[simp] theorem State.raiseIllFormed_console (ir : Word) : (s.raiseIllFormed ir).console = s.console := rfl

@[simp] theorem State.raiseBadVector_regs (ir : Word) : (s.raiseBadVector ir).regs = s.regs := rfl
@[simp] theorem State.raiseBadVector_pc (ir : Word) : (s.raiseBadVector ir).pc = s.pc := rfl
@[simp] theorem State.raiseBadVector_cond (ir : Word) : (s.raiseBadVector ir).cond = s.cond := rfl
@[simp] theorem State.raiseBadVector_mem (ir : Word) : (s.raiseBadVector ir).mem = s.mem := rfl
@[simp] theorem State.raiseBadVector_status (ir : Word) :
    (s.raiseBadVector ir).status =
      .faulted (s.faultRecord .unrecognizedTrapVector ir (some (fieldTrapvect8 ir))) := rfl
@[simp] theorem State.raiseBadVector_inPrompt (ir : Word) : (s.raiseBadVector ir).inPrompt = s.inPrompt := rfl
@[simp] theorem State.raiseBadVector_console (ir : Word) : (s.raiseBadVector ir).console = s.console := rfl

@[simp] theorem State.raiseIOFailure_regs (v : Byte) (d : Device) : (s.raiseIOFailure v d).regs = s.regs := rfl
@[simp] theorem State.raiseIOFailure_pc (v : Byte) (d : Device) : (s.raiseIOFailure v d).pc = s.pc := rfl
@[simp] theorem State.raiseIOFailure_cond (v : Byte) (d : Device) : (s.raiseIOFailure v d).cond = s.cond := rfl
@[simp] theorem State.raiseIOFailure_mem (v : Byte) (d : Device) : (s.raiseIOFailure v d).mem = s.mem := rfl
@[simp] theorem State.raiseIOFailure_status (v : Byte) (d : Device) :
    (s.raiseIOFailure v d).status = .ioFailed
      (IORecord.mk .hostIOFailure (s.pc - 1) v d) := rfl
@[simp] theorem State.raiseIOFailure_inPrompt (v : Byte) (d : Device) :
    (s.raiseIOFailure v d).inPrompt = s.inPrompt := rfl
@[simp] theorem State.raiseIOFailure_console (v : Byte) (d : Device) :
    (s.raiseIOFailure v d).console = s.console := rfl

@[simp] theorem State.writeResult_pc (r : Reg) (v : Word) : (s.writeResult r v).pc = s.pc := rfl
@[simp] theorem State.writeResult_cond (r : Reg) (v : Word) : (s.writeResult r v).cond = condOf v := rfl
@[simp] theorem State.writeResult_mem (r : Reg) (v : Word) : (s.writeResult r v).mem = s.mem := rfl
@[simp] theorem State.writeResult_status (r : Reg) (v : Word) : (s.writeResult r v).status = s.status := rfl
@[simp] theorem State.writeResult_inPrompt (r : Reg) (v : Word) : (s.writeResult r v).inPrompt = s.inPrompt := rfl
@[simp] theorem State.writeResult_console (r : Reg) (v : Word) : (s.writeResult r v).console = s.console := rfl

end

/-! ## Registers -/

/-- A register is read from the register file alone. -/
theorem State.reg_congr {s t : State} (h : t.regs = s.regs) (r : Reg) : t.reg r = s.reg r := by
  simp only [State.reg, h]

@[simp] theorem State.setReg_reg_self (s : State) (r : Reg) (v : Word) : (s.setReg r v).reg r = v := by
  simp [State.setReg, State.reg]

theorem State.setReg_reg_of_ne (s : State) {r r' : Reg} (v : Word) (h : r' ≠ r) :
    (s.setReg r v).reg r' = s.reg r' := by
  have hn : r.toNat ≠ r'.toNat := fun e => h (BitVec.eq_of_toNat_eq e.symm)
  simp [State.setReg, State.reg, hn]

@[simp] theorem State.setPc_reg (s : State) (t : Word) (r : Reg) : (s.setPc t).reg r = s.reg r := rfl
@[simp] theorem State.setCond_reg (s : State) (c : Cond) (r : Reg) : (s.setCond c).reg r = s.reg r := rfl
@[simp] theorem State.memWrite_reg (s : State) (a v : Word) (r : Reg) : (s.memWrite a v).reg r = s.reg r := rfl
@[simp] theorem State.advancePc_reg (s : State) (r : Reg) : s.advancePc.reg r = s.reg r := rfl

@[simp] theorem State.writeResult_reg_self (s : State) (r : Reg) (v : Word) : (s.writeResult r v).reg r = v := by
  simp [State.writeResult, State.setCC]

theorem State.writeResult_reg_of_ne (s : State) {r r' : Reg} (v : Word) (h : r' ≠ r) :
    (s.writeResult r v).reg r' = s.reg r' := by
  simp [State.writeResult, State.setCC, State.setReg_reg_of_ne s v h]

end Sys2Proof.Machine
end

