-- ==== Sys2Proof/Laws/Ops.lean ====
section
/-! SUPPORT. What each shared operation of the trap services can do, said once. -/

namespace Sys2Proof.Machine

/-! ## The console ports -/

/-- An Ok call: the answer is used up and the code is written; nothing else changes (R183). -/
theorem State.emit_eq_ok {s s' : State} {b : Byte} (h : s.emit b = .ok s') :
    s' = { s with console := { s.console with outputs := s.console.outputs.tail
                                              written := s.console.written ++ [b] } } ∧
      (s.console.outputs.head? = some .ok ∨ s.console.outputs = [] ∧ s.console.outputRest = .ok) := by
  rcases s with ⟨regs, pc, cond, mem, status, inPrompt, inputs, _ | ⟨_ | _, outputs⟩, _ | _, written⟩ <;>
    simp_all [State.emit]

/-- A failed call: the answer is used up, and nothing else changes (R183). -/
theorem State.emit_eq_fail {s s' : State} {b : Byte} (h : s.emit b = .fail s') :
    s' = { s with console := { s.console with outputs := s.console.outputs.tail } } ∧
      s.console.outputs.head? = some .fail := by
  rcases s with ⟨regs, pc, cond, mem, status, inPrompt, inputs, _ | ⟨_ | _, outputs⟩, _ | _, written⟩ <;>
    simp_all [State.emit]

/-- A call that is never answered: the listed answers are used up, and the device is silent after them. -/
theorem State.emit_eq_noAnswer {s : State} {b : Byte} :
    s.emit b = .noAnswer ↔ s.console.outputs = [] ∧ s.console.outputRest = .silent := by
  rcases s with ⟨regs, pc, cond, mem, status, inPrompt, inputs, _ | ⟨_ | _, outputs⟩, _ | _, written⟩ <;>
    simp [State.emit]

/-- An input call answered with a code (R182). -/
theorem State.input_eq_char {s s' : State} {b : Byte} (h : s.input = .char b s') :
    s' = { s with console := { s.console with inputs := s.console.inputs.tail } } ∧
      s.console.inputs.head? = some (.char b) := by
  rcases s with ⟨regs, pc, cond, mem, status, inPrompt, _ | ⟨_ | _, inputs⟩, outputs, rest, written⟩ <;>
    simp_all [State.input]

/-- An input call that fails (R182). -/
theorem State.input_eq_fail {s s' : State} (h : s.input = .fail s') :
    s' = { s with console := { s.console with inputs := s.console.inputs.tail } } ∧
      s.console.inputs.head? = some .fail := by
  rcases s with ⟨regs, pc, cond, mem, status, inPrompt, _ | ⟨_ | _, inputs⟩, outputs, rest, written⟩ <;>
    simp_all [State.input]

/-- An input call that is not answered. -/
theorem State.input_eq_noAnswer {s : State} : s.input = .noAnswer ↔ s.console.inputs = [] := by
  rcases s with ⟨regs, pc, cond, mem, status, inPrompt, _ | ⟨_ | _, inputs⟩, outputs, rest, written⟩ <;>
    simp [State.input]

/-- Everything `emitThen` can do when it answers a next state. -/
theorem emitThen_eq_next {v b : Byte} {s t : State} {k : State → Host.Outcome State Fault Refusal}
    (h : emitThen v b s k = .next t) :
    (∃ s', s.emit b = .ok s' ∧ k s' = .next t) ∨
      (∃ s', s.emit b = .fail s' ∧ t = s'.raiseIOFailure v .output) := by
  unfold emitThen at h
  split at h
  · exact .inl ⟨_, ‹_›, h⟩
  · exact .inr ⟨_, ‹_›, (Host.Outcome.next.inj h).symm⟩
  · cases h

/-- Everything `inputThen` can do when it answers a next state. -/
theorem inputThen_eq_next {v : Byte} {s t : State} {k : Byte → State → Host.Outcome State Fault Refusal}
    (h : inputThen v s k = .next t) :
    (∃ b s', s.input = .char b s' ∧ k b s' = .next t) ∨
      (∃ s', s.input = .fail s' ∧ t = s'.raiseIOFailure v .input) := by
  unfold inputThen at h
  split at h
  · exact .inl ⟨_, _, ‹_›, h⟩
  · exact .inr ⟨_, ‹_›, (Host.Outcome.next.inj h).symm⟩
  · cases h

/-! ## Loops that write to the console -/

/-- `t` is `s` but for the console, whose output has grown. -/
def ConsoleGrown (s t : State) : Prop :=
  (∃ codes, t.console.written = s.console.written ++ codes) ∧ t = { s with console := t.console }

/-- `t` is `s` but for the console, whose output has grown, and the status, since the output device failed in the
service of `vector` (R223). -/
def OutputFailed (vector : Byte) (s t : State) : Prop :=
  (∃ codes, t.console.written = s.console.written ++ codes) ∧
    t = { s with console := t.console
                 status := .ioFailed (IORecord.mk .hostIOFailure (s.pc - 1) vector .output) }

theorem ConsoleGrown.refl (s : State) : ConsoleGrown s s := ⟨⟨[], by simp⟩, rfl⟩

theorem OutputFailed.of_fail {vector b : Byte} {s s' : State} (h : s.emit b = .fail s') :
    OutputFailed vector s (s'.raiseIOFailure vector .output) := by
  obtain ⟨rfl, -⟩ := State.emit_eq_fail h
  exact ⟨⟨[], by simp⟩, rfl⟩

theorem ConsoleGrown.of_ok {b : Byte} {s s' t : State} (h : s.emit b = .ok s') (ht : ConsoleGrown s' t) :
    ConsoleGrown s t := by
  obtain ⟨rfl, -⟩ := State.emit_eq_ok h
  obtain ⟨⟨codes, hw⟩, ht⟩ := ht
  exact ⟨⟨b :: codes, by simp [hw]⟩, ht⟩

theorem OutputFailed.of_ok {vector b : Byte} {s s' t : State} (h : s.emit b = .ok s')
    (ht : OutputFailed vector s' t) : OutputFailed vector s t := by
  obtain ⟨rfl, -⟩ := State.emit_eq_ok h
  obtain ⟨⟨codes, hw⟩, ht⟩ := ht
  exact ⟨⟨b :: codes, by simp [hw]⟩, ht⟩

/-- The loop of PUTS, when it completes, has written to the console, or the device failed (R186). -/
theorem putsLoop_eq_next : ∀ (fuel : Nat) (i : Word) (s t : State), putsLoop fuel i s = .next t →
    ConsoleGrown s t ∨ OutputFailed 0x22 s t
  | 0, _, _, _, h => by cases h
  | fuel + 1, i, s, t, h => by
    unfold putsLoop at h
    split at h
    · cases h; exact .inl (.refl _)
    · rcases emitThen_eq_next h with ⟨s', he, hk⟩ | ⟨s', he, rfl⟩
      · exact (putsLoop_eq_next fuel _ _ _ hk).imp (.of_ok he) (.of_ok he)
      · exact .inr (.of_fail he)

/-- The loop of PUTSP, when it completes, has written to the console, or the device failed (R188). -/
theorem putspLoop_eq_next : ∀ (fuel : Nat) (i : Word) (s t : State), putspLoop fuel i s = .next t →
    ConsoleGrown s t ∨ OutputFailed 0x24 s t
  | 0, _, _, _, h => by cases h
  | fuel + 1, i, s, t, h => by
    unfold putspLoop at h
    split at h
    · cases h; exact .inl (.refl _)
    · rcases emitThen_eq_next h with ⟨s', he, hk⟩ | ⟨s', he, rfl⟩
      · split at hk
        · cases hk; exact .inl (.of_ok he (.refl _))
        · rcases emitThen_eq_next hk with ⟨s'', he', hk'⟩ | ⟨s'', he', rfl⟩
          · exact (putspLoop_eq_next fuel _ _ _ hk').imp (fun h => .of_ok he (.of_ok he' h))
              (fun h => .of_ok he (.of_ok he' h))
          · exact .inr (.of_ok he (.of_fail he'))
      · exact .inr (.of_fail he)

/-- A list of codes, as IN writes its prompt: either a device call failed, or all of it was written and the service goes
on from a state that differs in the console alone (R187). -/
theorem emitAllThen_eq_next : ∀ (codes : List Byte) {v : Byte} {s t : State}
    {k : State → Host.Outcome State Fault Refusal}, emitAllThen v codes s k = .next t →
    OutputFailed v s t ∨ ∃ s', s' = { s with console := s'.console } ∧
      s'.console.written = s.console.written ++ codes ∧ s'.console.inputs = s.console.inputs ∧ k s' = .next t
  | [], _, s, _, _, h => .inr ⟨s, rfl, by simp, rfl, h⟩
  | c :: codes, v, s, t, k, h => by
    rcases emitThen_eq_next h with ⟨s', he, hk⟩ | ⟨s', he, rfl⟩
    · rcases emitAllThen_eq_next codes hk with hr | ⟨s'', h1, h2, h3, h4⟩
      · exact .inl (.of_ok he hr)
      · obtain ⟨rfl, -⟩ := State.emit_eq_ok he
        exact .inr ⟨s'', h1, by simpa using h2, h3, h4⟩
    · exact .inl (.of_fail he)

end Sys2Proof.Machine
end

