-- ==== Sys2Proof/Laws/PerInstr.lean ====
section
/-! SUPPORT. Families of statements made per instruction, one lemma for each constructor of Instr. -/

namespace Sys2Proof.Laws

/-- The encoding of an instruction carries its opcode: its bits [15:12] decode to the opcode of its form (R71, R75). -/
def EncodesOpcode.Statement (i : Instr) : Prop := decodeOpcode (encode i) = instrOpcode i

/-- What a lemma of the family shows: the top four bits of the encoding are the value of the opcode. -/
theorem topBits_lift {i : Instr}
    (h : ∀ j, j < 4 → (encode i).getLsbD (12 + j) = (opcodeValue (instrOpcode i)).getLsbD j) :
    EncodesOpcode.Statement i := by
  refine (decodeOpcode_eq_iff _ _).mpr (BitVec.eq_of_getLsbD_eq fun j hj => ?_)
  simpa [fieldOpcode, hj] using h j hj

theorem EncodesOpcode.add (dr sr1 sr2 : Reg) : EncodesOpcode.Statement (.add dr sr1 sr2) :=
  topBits_lift fun j hj => by simp [encode, instrOpcode, getLsbD_place]; grind

theorem EncodesOpcode.addImm (dr sr1 : Reg) (imm5 : BitVec 5) : EncodesOpcode.Statement (.addImm dr sr1 imm5) :=
  topBits_lift fun j hj => by simp [encode, instrOpcode, getLsbD_place]; grind

theorem EncodesOpcode.and (dr sr1 sr2 : Reg) : EncodesOpcode.Statement (.and dr sr1 sr2) :=
  topBits_lift fun j hj => by simp [encode, instrOpcode, getLsbD_place]; grind

theorem EncodesOpcode.andImm (dr sr1 : Reg) (imm5 : BitVec 5) : EncodesOpcode.Statement (.andImm dr sr1 imm5) :=
  topBits_lift fun j hj => by simp [encode, instrOpcode, getLsbD_place]; grind

theorem EncodesOpcode.not (dr sr : Reg) : EncodesOpcode.Statement (.not dr sr) :=
  topBits_lift fun j hj => by simp [encode, instrOpcode, getLsbD_place]; grind

theorem EncodesOpcode.br (mask : BitVec 3) (off : BitVec 9) : EncodesOpcode.Statement (.br mask off) :=
  topBits_lift fun j hj => by simp [encode, instrOpcode, getLsbD_place]; grind

theorem EncodesOpcode.jmp (b : Reg) : EncodesOpcode.Statement (.jmp b) :=
  topBits_lift fun j hj => by simp [encode, instrOpcode, getLsbD_place]; grind

theorem EncodesOpcode.jsr (off : BitVec 11) : EncodesOpcode.Statement (.jsr off) :=
  topBits_lift fun j hj => by simp [encode, instrOpcode, getLsbD_place]; grind

theorem EncodesOpcode.jsrr (b : Reg) : EncodesOpcode.Statement (.jsrr b) :=
  topBits_lift fun j hj => by simp [encode, instrOpcode, getLsbD_place]; grind

theorem EncodesOpcode.ld (dr : Reg) (off : BitVec 9) : EncodesOpcode.Statement (.ld dr off) :=
  topBits_lift fun j hj => by simp [encode, instrOpcode, getLsbD_place]; grind

theorem EncodesOpcode.ldi (dr : Reg) (off : BitVec 9) : EncodesOpcode.Statement (.ldi dr off) :=
  topBits_lift fun j hj => by simp [encode, instrOpcode, getLsbD_place]; grind

theorem EncodesOpcode.ldr (dr b : Reg) (off : BitVec 6) : EncodesOpcode.Statement (.ldr dr b off) :=
  topBits_lift fun j hj => by simp [encode, instrOpcode, getLsbD_place]; grind

theorem EncodesOpcode.lea (dr : Reg) (off : BitVec 9) : EncodesOpcode.Statement (.lea dr off) :=
  topBits_lift fun j hj => by simp [encode, instrOpcode, getLsbD_place]; grind

theorem EncodesOpcode.st (sr : Reg) (off : BitVec 9) : EncodesOpcode.Statement (.st sr off) :=
  topBits_lift fun j hj => by simp [encode, instrOpcode, getLsbD_place]; grind

theorem EncodesOpcode.sti (sr : Reg) (off : BitVec 9) : EncodesOpcode.Statement (.sti sr off) :=
  topBits_lift fun j hj => by simp [encode, instrOpcode, getLsbD_place]; grind

theorem EncodesOpcode.str (sr b : Reg) (off : BitVec 6) : EncodesOpcode.Statement (.str sr b off) :=
  topBits_lift fun j hj => by simp [encode, instrOpcode, getLsbD_place]; grind

theorem EncodesOpcode.trap (u : BitVec 4) (v : Byte) : EncodesOpcode.Statement (.trap u v) :=
  topBits_lift fun j hj => by simp [encode, instrOpcode, getLsbD_place]; grind

theorem EncodesOpcode.rti (u : BitVec 12) : EncodesOpcode.Statement (.rti u) :=
  topBits_lift fun j hj => by simp [encode, instrOpcode, getLsbD_place]; grind

theorem EncodesOpcode.res (u : BitVec 12) : EncodesOpcode.Statement (.res u) :=
  topBits_lift fun j hj => by simp [encode, instrOpcode, getLsbD_place]; grind

end Sys2Proof.Laws
end

