-- ==== Sys2Proof/Laws/Step.lean ====
section
/-! SUPPORT. One step, by the run status (R82, R83), and the outcome of the ports. -/

namespace Sys2Proof.Machine

/-- A running machine fetches, increments PC, decodes and dispatches (R82). -/
theorem step_of_running {s : State} (h : s.status = .running) :
    step s = exec (decodeWord (s.memRead s.pc)) s.advancePc := by
  simp only [step, h]; rfl

/-- A stopped machine stays as it is (R83). -/
theorem step_of_stopped {s : State} (h : s.status ≠ .running) : step s = .next s := by
  unfold step
  split
  · contradiction
  all_goals rfl

/-- Everything a step can do when it answers a next state. -/
theorem step_eq_next {s t : State} (h : step s = .next t) :
    (s.status = .running ∧ exec (decodeWord (s.memRead s.pc)) s.advancePc = .next t) ∨
      (s.status ≠ .running ∧ t = s) := by
  by_cases hs : s.status = .running
  · exact .inl ⟨hs, step_of_running hs ▸ h⟩
  · exact .inr ⟨hs, (Host.Outcome.next.inj (step_of_stopped hs ▸ h)).symm⟩

/-- The step port answers the next state of `step`, and whether it is running (R44). -/
theorem stepPort_eq_next {s t : State} {b : Bool} :
    stepPort s = .next (t, b) ↔ step s = .next t ∧ b = t.continues := by
  unfold stepPort
  cases step s with
  | next u => simp only [Host.Outcome.next.injEq, Prod.mk.injEq]; constructor <;> (rintro ⟨rfl, h⟩; simp [h])
  | fault r => simp
  | refused r => simp

/-- The dispatcher names a service for exactly the vectors 0x20 to 0x25 (R181). -/
theorem serviceOf_isSome : ∀ v : Byte, (serviceOf v).isSome = definedVector v := by decide

end Sys2Proof.Machine
end

