-- ==== Sys2Proof/Tests/Slice0.lean ====
section
/-! SUPPORT. Tests. Expected results are the spec's own vectors (95_test_vectors.md, the worked examples of the
instruction rules) or are worked out by hand from the rule named. The last section meets the hypotheses of the
statements. -/

namespace Sys2Proof.Tests

open Sys2Proof.Machine Sys2Proof.Safety

/-! ## Well-formedness (R78): one ill-formed term for each check -/

theorem test_rti_is_ill_formed : (Instr.rti 0).wellFormed = false := by decide
theorem test_res_is_ill_formed : (Instr.res 0xFFF).wellFormed = false := by decide
theorem test_vector_x1F_is_ill_formed : (Instr.trap 0 0x1F).wellFormed = false := by decide
theorem test_vector_x26_is_ill_formed : (Instr.trap 0 0x26).wellFormed = false := by decide
theorem test_vectors_x20_x25_are_well_formed :
    (Instr.trap 0 0x20).wellFormed = true ∧ (Instr.trap 0xF 0x25).wellFormed = true := by decide

/-! ## Decoding and encoding: words written out from the formats of R73 and the opcode map of R75 -/

/-- `w` decodes to `i`, and `i` encodes to `w`. -/
abbrev Encodes (w : Word) (i : Instr) : Prop := decodeWord w = i ∧ encode i = w

theorem test_encoding_add : Encodes 0b0001_000_001_0_00_010 (.add 0 1 2) := by decide
theorem test_encoding_addImm : Encodes 0b0001_001_001_1_11110 (.addImm 1 1 0b11110) := by decide
theorem test_encoding_and : Encodes 0b0101_011_001_0_00_010 (.and 3 1 2) := by decide
theorem test_encoding_andImm : Encodes 0b0101_010_010_1_00000 (.andImm 2 2 0) := by decide
theorem test_encoding_not : Encodes 0b1001_100_101_111111 (.not 4 5) := by decide
theorem test_encoding_br : Encodes 0b0000_101_000000101 (.br 0b101 5) := by decide
theorem test_encoding_jmp : Encodes 0b1100_000_011_000000 (.jmp 3) := by decide
theorem test_encoding_jsr : Encodes 0b0100_1_10000000000 (.jsr 0x400) := by decide
theorem test_encoding_jsrr : Encodes 0b0100_0_00_011_000000 (.jsrr 3) := by decide
theorem test_encoding_ld : Encodes 0b0010_001_000000001 (.ld 1 1) := by decide
theorem test_encoding_ldi : Encodes 0b1010_010_000000001 (.ldi 2 1) := by decide
theorem test_encoding_ldr : Encodes 0b0110_100_101_111111 (.ldr 4 5 0b111111) := by decide
theorem test_encoding_lea : Encodes 0b1110_000_000000010 (.lea 0 2) := by decide
theorem test_encoding_st : Encodes 0b0011_011_111111110 (.st 3 0x1FE) := by decide
theorem test_encoding_sti : Encodes 0b1011_000_000000001 (.sti 0 1) := by decide
theorem test_encoding_str : Encodes 0b0111_001_010_000000 (.str 1 2 0) := by decide
theorem test_encoding_trap : Encodes 0b1111_1111_00100101 (.trap 0b1111 0x25) := by decide
theorem test_encoding_rti : Encodes 0b1000_000000000001 (.rti 1) := by decide
theorem test_encoding_res : Encodes 0b1101_111111111111 (.res 0xFFF) := by decide

/-- R77: the spec's words with stray bits set. -/
theorem test_stray_bits_ignored :
    decodeWord 0x1018 = .add 0 0 0 ∧ decodeWord 0x9040 = .not 0 1 ∧ decodeWord 0xCEFF = .jmp 3 ∧
      decodeWord 0b0100_0_11_011_111111 = .jsrr 3 := by decide

theorem test_decode_takes_two_bytes :
    decode [0x10, 0x42, 0x30] = .ok (.add 0 1 2, [0x30]) ∧ decode [0x10] = .error (.truncated 1) := by decide

theorem test_table_word : decodeTableWord 16 0xF025 = some (.trap 0 0x25) := by decide

/-! ## One step, on small states -/

/-- A machine that stands at `pc` with the words `words` in memory. -/
def machine (pc : Word) (regs : Vector Word 8) (cond : Cond) (words : List (Word × Word)) : State :=
  { State.reset with
    pc := pc
    regs := regs
    cond := cond
    mem := words.foldl (fun m w => m.writeWord w.1 w.2) Memory.empty }

/-- The same machine with answers of the console devices to come. -/
def withDevices (s : State) (inputs : List InputAnswer) (outputs : List OutputAnswer) : State :=
  { s with console := { s.console with inputs := inputs, outputs := outputs } }

/-- What a test looks at after one step. -/
def after {α : Type} (s : State) (look : State → α) : Option α :=
  match step s with
  | .next t => some (look t)
  | .fault _ => none
  | .refused _ => none

/-- Registers that all hold 0. -/
def zeros : Vector Word 8 := Vector.replicate 8 0

-- 95_test_vectors.md 2.2
theorem test_add_signed_overflow_is_negative :
    after (machine 0x3000 #v[0, 0x7FFF, 1, 0, 0, 0, 0, 0] .z [(0x3000, 0x1042)])
      (fun t => (t.reg 0, t.cond, t.pc)) = some (0x8000, .n, 0x3001) := by decide
theorem test_add_wraps_to_zero :
    after (machine 0x3000 #v[9, 0xFFFF, 1, 0, 0, 0, 0, 0] .p [(0x3000, 0x1042)])
      (fun t => (t.reg 0, t.cond, t.reg 1)) = some (0, .z, 0xFFFF) := by decide
theorem test_addImm_minus_16 :
    after (machine 0x3000 #v[0x10, 0, 0, 0, 0, 0, 0, 0] .p [(0x3000, 0x1030)])
      (fun t => (t.reg 0, t.cond)) = some (0, .z) := by decide
theorem test_addImm_wraps_to_positive :
    after (machine 0x3000 #v[0x8000, 0, 0, 0, 0, 0, 0, 0] .n [(0x3000, 0x103F)])
      (fun t => (t.reg 0, t.cond)) = some (0x7FFF, .p) := by decide
theorem test_and_register :
    after (machine 0x3000 #v[0, 0xFF, 0xF0F, 7, 0, 0, 0, 0] .z [(0x3000, 0x5642)])
      (fun t => (t.reg 3, t.cond)) = some (0xF, .p) := by decide
theorem test_andImm_mask_is_sign_extended :
    after (machine 0x3000 #v[0x1234, 0, 0, 0, 0, 0, 0, 0] .z [(0x3000, 0x5030)])
      (fun t => (t.reg 0, t.cond)) = some (0x1230, .p) := by decide
theorem test_not_own_source :
    after (machine 0x3000 #v[0x8000, 0, 0, 0, 0, 0, 0, 0] .z [(0x3000, 0x903F)])
      (fun t => (t.reg 0, t.cond)) = some (0x7FFF, .p) := by decide

-- 95_test_vectors.md 2.3
theorem test_brp_taken : after (machine 0x3000 zeros .p [(0x3000, 0x0202)]) (·.pc) = some 0x3003 := by decide
theorem test_br_wraps_below_zero : after (machine 0 zeros .p [(0, 0x0FFE)]) (·.pc) = some 0xFFFF := by decide
theorem test_brnp_not_taken_on_zero :
    after (machine 0x3000 zeros .z [(0x3000, 0x0A05)]) (·.pc) = some 0x3001 := by decide
theorem test_jmp_ret :
    after (machine 0x3000 #v[0, 0, 0, 0, 0, 0, 0, 0x3050] .z [(0x3000, 0xC1C0)])
      (fun t => (t.pc, t.reg 7)) = some (0x3050, 0x3050) := by decide
theorem test_jsr_backwards :
    after (machine 0x3000 zeros .z [(0x3000, 0x4C00)])
      (fun t => (t.reg 7, t.pc)) = some (0x3001, 0x2C01) := by decide
theorem test_jsrr :
    after (machine 0x3002 #v[0, 0, 0, 0x3006, 0, 0, 0, 0] .z [(0x3002, 0x40C0)])
      (fun t => (t.reg 7, t.pc)) = some (0x3003, 0x3006) := by decide
theorem test_jsrr_r7_reads_base_after_link :
    after (machine 0x3000 #v[0, 0, 0, 0, 0, 0, 0, 0x5000] .z [(0x3000, 0x41C0)])
      (fun t => (t.reg 7, t.pc)) = some (0x3001, 0x3001) := by decide

-- 95_test_vectors.md 2.4
theorem test_ld :
    after (machine 0x3000 zeros .z [(0x3000, 0x2201), (0x3002, 0x8000)])
      (fun t => (t.reg 1, t.cond)) = some (0x8000, .n) := by decide
theorem test_ldi_goes_through_pointer :
    after (machine 0x3000 zeros .p [(0x3000, 0xA401), (0x3002, 0x4000)])
      (fun t => (t.reg 2, t.cond)) = some (0, .z) := by decide
theorem test_ldr_negative_offset :
    after (machine 0x3000 #v[0, 0, 0, 0, 0, 0x4000, 0, 0] .z [(0x3000, 0x697F), (0x3FFF, 0x1234)])
      (fun t => (t.reg 4, t.cond)) = some (0x1234, .p) := by decide
theorem test_ldr_address_wraps :
    after (machine 0x3000 #v[0, 0xFFFF, 0, 0, 0, 0, 0, 0] .z [(0x3000, 0x6041), (0, 0x8001)])
      (fun t => (t.reg 0, t.cond)) = some (0x8001, .n) := by decide
theorem test_lea_sets_cond :
    after (machine 0x8000 zeros .z [(0x8000, 0xE1FF)]) (fun t => (t.reg 0, t.cond)) = some (0x8000, .n) := by decide

-- 95_test_vectors.md 2.5
theorem test_st_before_itself :
    after (machine 0x3000 #v[0, 0, 0, 0xBEEF, 0, 0, 0, 0] .z [(0x3000, 0x37FE)])
      (fun t => (t.memRead 0x2FFF, t.cond)) = some (0xBEEF, .z) := by decide
theorem test_sti_overwrites_its_pointer :
    after (machine 0x3000 #v[0x1111, 0, 0, 0, 0, 0, 0, 0] .z [(0x3000, 0xB001), (0x3002, 0x3002)])
      (·.memRead 0x3002) = some 0x1111 := by decide
theorem test_sti_keeps_its_pointer :
    after (machine 0x3000 #v[0x41, 0, 0, 0, 0, 0, 0, 0] .z [(0x3000, 0xB001), (0x3002, 0x4000)])
      (fun t => (t.memRead 0x4000, t.memRead 0x3002)) = some (0x41, 0x4000) := by decide
theorem test_str_stores_its_base :
    after (machine 0x3000 #v[0, 0, 0, 0, 0, 0, 0x4000, 0] .z [(0x3000, 0x7D81)])
      (·.memRead 0x4001) = some 0x4000 := by decide
/-- Storing a zero word removes its cells: memory stays canonical (log 6). -/
theorem test_storing_zero_unlists :
    after (machine 0x3000 zeros .z [(0x3000, 0x3001), (0x3002, 0x1234)]) (·.mem.cells)
      = some [(0x6000, 0x30), (0x6001, 0x01)] := by decide

-- 95_test_vectors.md 2.6
theorem test_getc_leaves_cond :
    after (withDevices (machine 0x3000 zeros .p [(0x3000, 0xF020)]) [.char 0] [])
      (fun t => (t.reg 0, t.cond, t.console.written)) = some (0, .p, []) := by decide
theorem test_getc_failure_leaves_r0 :
    after (withDevices (machine 0x3000 #v[0x1234, 0, 0, 0, 0, 0, 0, 0] .z [(0x3000, 0xF020)]) [.fail] [])
      (fun t => (t.reg 0, t.pc, t.status))
      = some (0x1234, 0x3001, .ioFailed ⟨.hostIOFailure, 0x3000, 0x20, .input⟩) := by decide
theorem test_out_writes_low_byte :
    after (machine 0x3000 #v[0x1241, 0, 0, 0, 0, 0, 0, 0] .z [(0x3000, 0xF021)]) (·.console.written)
      = some [0x41] := by decide
theorem test_out_failure :
    after (withDevices (machine 0x3000 #v[0x41, 0, 0, 0, 0, 0, 0, 0] .z [(0x3000, 0xF021)]) [] [.fail])
      (fun t => (t.console.written, t.status))
      = some ([], .ioFailed ⟨.hostIOFailure, 0x3000, 0x21, .output⟩) := by decide
theorem test_puts_tests_whole_word_and_wraps :
    after (machine 0x3000 #v[0xFFFF, 0, 0, 0, 0, 0, 0, 0] .z [(0x3000, 0xF022), (0xFFFF, 0x0100), (0, 0x42)])
      (fun t => (t.console.written, t.reg 0)) = some ([0x00, 0x42], 0xFFFF) := by decide
theorem test_puts_fails_on_second_call :
    after (withDevices (machine 0x3000 #v[0x4000, 0, 0, 0, 0, 0, 0, 0] .z
        [(0x3000, 0xF022), (0x4000, 0x48), (0x4001, 0x49)]) [] [.ok, .fail])
      (fun t => (t.console.written, t.status))
      = some ([0x48], .ioFailed ⟨.hostIOFailure, 0x3000, 0x22, .output⟩) := by decide
theorem test_in_prompts_and_echoes :
    after { withDevices (machine 0x3000 zeros .n [(0x3000, 0xF023)]) [.char 0x79] [] with inPrompt := [0x3E, 0x20] }
      (fun t => (t.console.written, t.reg 0, t.cond)) = some ([0x3E, 0x20, 0x79], 0x79, .n) := by decide
theorem test_in_failure_keeps_prompt_and_r0 :
    after { withDevices (machine 0x3000 #v[5, 0, 0, 0, 0, 0, 0, 0] .z [(0x3000, 0xF023)]) [.fail] []
        with inPrompt := [0x3E, 0x20] }
      (fun t => (t.console.written, t.reg 0, t.status))
      = some ([0x3E, 0x20], 5, .ioFailed ⟨.hostIOFailure, 0x3000, 0x23, .input⟩) := by decide
theorem test_putsp_stops_at_zero_high_byte :
    after (machine 0x3000 #v[0x4000, 0, 0, 0, 0, 0, 0, 0] .z
        [(0x3000, 0xF024), (0x4000, 0x4948), (0x4001, 0x0021), (0x4002, 0x4444)])
      (·.console.written) = some [0x48, 0x49, 0x21] := by decide
theorem test_putsp_zero_low_byte_writes_nothing :
    after (machine 0x3000 #v[0x4000, 0, 0, 0, 0, 0, 0, 0] .z [(0x3000, 0xF024), (0x4000, 0x4100)])
      (·.console.written) = some [] := by decide
theorem test_halt_ignores_unused_bits :
    after (machine 0x3000 zeros .z [(0x3000, 0xFF25)]) (fun t => (t.status, t.pc)) = some (.halted, 0x3001) := by decide
theorem test_vector_x26_is_fatal :
    after (machine 0x3000 zeros .z [(0x3000, 0xF026)]) (fun t => (t.status, t.pc))
      = some (.faulted ⟨.unrecognizedTrapVector, 0x3000, 0xF026, 15, some 0x26⟩, 0x3001) := by decide

-- 95_test_vectors.md 2.7 and 2.8
theorem test_rti_record :
    after (machine 0x3000 zeros .z [(0x3000, 0x8FFF)]) (fun t => (t.status, t.pc))
      = some (.faulted ⟨.illFormedInstruction, 0x3000, 0x8FFF, 8, none⟩, 0x3001) := by decide
theorem test_res_record :
    after (machine 0x4000 zeros .z [(0x4000, 0xDFFF)]) (fun t => (t.status, t.pc))
      = some (.faulted ⟨.illFormedInstruction, 0x4000, 0xDFFF, 13, none⟩, 0x4001) := by decide
theorem test_halted_machine_does_not_fetch :
    after { machine 0x3000 zeros .z [(0x3000, 0x1025)] with status := .halted } (fun t => (t.pc, t.reg 0))
      = some (0x3000, 0) := by decide
theorem test_withFetchWord_runs_after_reset :
    after (State.reset.withFetchWord 16 0x1025) (fun t => (t.reg 0, t.pc)) = some (5, 0x3001) := by decide

-- R27 and R30, R251 with the image of program P1 as a byte stream
theorem test_cond_layout : Cond.n.bits = 0b100 ∧ Cond.z.bits = 0b010 ∧ Cond.p.bits = 0b001 := by decide
theorem test_condition_codes :
    Condition.illFormedInstruction.code = 1 ∧ Condition.unrecognizedTrapVector.code = 2 ∧
      Condition.hostIOFailure.code = 3 := by decide
/-- The state the loader gives, if it accepts the image. -/
def loaded (bytes : List Byte) : Option State :=
  match State.reset.loadImageBytes bytes with
  | .next t => some t
  | .fault _ => none
  | .refused _ => none
theorem test_loader_is_big_endian :
    (loaded [0x30, 0x00, 0xE0, 0x02, 0xF0, 0x22]).map (fun t => (t.pc, t.memRead 0x3000, t.memRead 0x3001))
      = some (0x3000, 0xE002, 0xF022) := by decide
theorem test_loader_turns_away_long_image : loaded [0xFF, 0xFF, 0, 1, 0, 2] = none := by decide

/-! ## States that meet the hypotheses of the statements -/

/-- A running machine at 0x3000 whose instruction word is `w`. -/
def at3000 (w : Word) : State := machine 0x3000 zeros .z [(0x3000, w)]

/-- The state with another IN prompt. -/
def withPrompt (s : State) (prompt : List Byte) : State := { s with inPrompt := prompt }

/-- Devices with these answers, the output device never answering after its own. -/
def silentAfter (inputs : List InputAnswer) (outputs : List OutputAnswer) : Console :=
  { inputs := inputs, outputs := outputs, outputRest := .silent, written := [] }

/-- The handler's state of a TRAP: R0 points at the string of two words that ends at 0x4002. -/
def stringMachine : State :=
  machine 0x3001 #v[0x4000, 0, 0, 0, 0, 0, 0, 0] .z [(0x4000, 0x4948), (0x4001, 0x0021)]

theorem witness_MachineStartValues : ∃ t, (State.start {} Memory.empty Console.fresh).loadImage
    ([0x5000, 0xF025] : List Word) = .next t := ⟨_, rfl⟩
theorem witness_StepKeepsInvariant_running : Inv (at3000 0x8000) ∧ ∃ t, step (at3000 0x8000) = .next t :=
  ⟨⟨by decide, trivial⟩, _, rfl⟩
theorem witness_StepKeepsInvariant_stopped :
    Inv { at3000 0xF025 with pc := 0x3001, status := .halted } ∧
      ∃ t, step { at3000 0xF025 with pc := 0x3001, status := .halted } = .next t :=
  ⟨⟨by decide, ⟨0, by decide⟩⟩, _, rfl⟩
theorem witness_IgnoredBitsHaveNoEffect_legal :
    (0xFF25 : Word) &&& occupiedBits 0xFF25 = 0xF025 &&& occupiedBits 0xFF25 ∧
      (decodeWord 0xFF25).wellFormed = true := by decide
theorem witness_IgnoredBitsHaveNoEffect_notTrap :
    (0x903F : Word) &&& occupiedBits 0x903F = 0x9000 &&& occupiedBits 0x903F ∧
      decodeOpcode 0x903F ≠ .trap := by decide
theorem witness_IgnoredBitsHaveNoEffect_illegal :
    (0xF026 : Word) &&& occupiedBits 0xF026 = 0xFF26 &&& occupiedBits 0xF026 ∧
      (decodeWord 0xF026).wellFormed = false := by decide
theorem witness_IllegalEncodingsExactly : State.reset.status = .running := by decide
theorem witness_StepRunsDecodedInstruction :
    (at3000 0x1025).status = .running ∧
      decode [(at3000 0x1025).mem.readByte (highCell (at3000 0x1025).pc),
        (at3000 0x1025).mem.readByte (lowCell (at3000 0x1025).pc)] = .ok (.addImm 0 0 5, []) := by decide
theorem witness_TerminalStatusIsFinal_step : ∃ t, step (at3000 0xF025) = .next t := ⟨_, rfl⟩
theorem witness_TerminalStatusIsFinal_stopped : ({ at3000 0 with status := .halted } : State).status ≠ .running := by
  decide
theorem witness_RunReturnsOnlyStopped :
    ∃ t, Host.Core.run Sys2Proof.core 1 (at3000 0xF025) = .next t ∧ t.status ≠ .running := ⟨_, rfl, by decide⟩
theorem witness_HostAccessReadsBack : ((0b100 : BitVec 3) = 0b100 ∨ (0b100 : BitVec 3) = 0b010 ∨
    (0b100 : BitVec 3) = 0b001) ∧ ¬ ((0b011 : BitVec 3) = 0b100 ∨ (0b011 : BitVec 3) = 0b010 ∨
    (0b011 : BitVec 3) = 0b001) := by decide
theorem witness_LoaderPlacesImage_fits :
    (0xFFFF : Word).toNat + ([1] : List Word).length ≤ 65536 ∧ 0 < ([1] : List Word).length ∧
      ∀ k < ([1] : List Word).length, (0 : Word) ≠ 0xFFFF + BitVec.ofNat 16 k := by decide
theorem witness_LoaderPlacesImage_tooLong :
    65536 < (0xFFFF : Word).toNat + ([1, 2] : List Word).length := by decide
theorem witness_LoaderPlacesImage_odd : ([0x30] : List Byte).length % 2 = 1 := by decide
theorem witness_MemoryWriteThenRead : (0xFFFF : Word) ≠ 0 := by decide
theorem witness_CanonicalMemoriesEqual :
    let m : Memory := { cells := [(0, 1), (131071, 2)] }
    m.wf = true ∧ m.wf = true ∧ ∀ a : Word, m.readWord a = m.readWord a := ⟨by decide, by decide, fun _ => rfl⟩
theorem witness_SignExtensionFormula : 0 < 1 ∧ 1 ≤ 16 ∧ 0 < 16 ∧ 16 ≤ 16 := by decide
theorem witness_AddressesWrap :
    ((0xFFFF : Word).toNat : Int) = (((0 : Word).toNat : Int) + (0x1FF : BitVec 9).toInt) % 65536 := by decide
theorem witness_AddWritesSum : (0x1042 : Word) &&& 0xF020 = 0x1000 := by decide
theorem witness_AddImmWritesSum : (0x127E : Word) &&& 0xF020 = 0x1020 := by decide
theorem witness_AndWritesConjunction : (0x5642 : Word) &&& 0xF020 = 0x5000 := by decide
theorem witness_AndImmWritesConjunction : (0x54A0 : Word) &&& 0xF020 = 0x5020 := by decide
theorem witness_NotWritesComplement : (0x997F : Word) &&& 0xF000 = 0x9000 := by decide
theorem witness_BranchGoesByMask : (0x0202 : Word) &&& 0xF000 = 0x0000 := by decide
theorem witness_JmpGoesToBase : (0xC1C0 : Word) &&& 0xF000 = 0xC000 := by decide
theorem witness_JsrLinksAndGoes : (0x4805 : Word) &&& 0xF800 = 0x4800 := by decide
theorem witness_JsrrLinksThenReadsBase : (0x41C0 : Word) &&& 0xF800 = 0x4000 := by decide
theorem witness_LdReadsPcRelative : (0x2201 : Word) &&& 0xF000 = 0x2000 := by decide
theorem witness_LdiReadsThroughPointer : (0xA401 : Word) &&& 0xF000 = 0xA000 := by decide
theorem witness_LdrReadsBasePlusOffset : (0x697F : Word) &&& 0xF000 = 0x6000 := by decide
theorem witness_LeaWritesAddress : (0xE002 : Word) &&& 0xF000 = 0xE000 := by decide
theorem witness_StStoresPcRelative : (0x37FE : Word) &&& 0xF000 = 0x3000 := by decide
theorem witness_StiStoresThroughPointer : (0xB001 : Word) &&& 0xF000 = 0xB000 := by decide
theorem witness_StrStoresBasePlusOffset : (0x7280 : Word) &&& 0xF000 = 0x7000 := by decide
theorem witness_StoredWordIsFetched :
    (at3000 0x3200).status = .running ∧ decodeWord ((at3000 0x3200).memRead (at3000 0x3200).pc) = .st 1 0 ∧
      storeAddress (.st 1 0) { at3000 0x3200 with pc := (at3000 0x3200).pc + 1 } = some ((at3000 0x3200).pc + 1) ∧
      storedWord (.st 1 0) (at3000 0x3200) = some 0 := by decide
theorem witness_TrapDispatchTable : (0xF021 : Word) &&& 0xF000 = 0xF000 := by decide
theorem witness_GetcStoresCode :
    (withDevices (at3000 0) [.char 0x41] []).console.inputs = .char 0x41 :: [] ∧
      (withDevices (at3000 0) [.fail] []).console.inputs = .fail :: [] := by decide
theorem witness_UnansweredCallsNeverComplete :
    (at3000 0).console.inputs = [] ∧ AcceptsCalls (at3000 0).console (at3000 0).inPrompt.length ∧
      SilentAfter { (at3000 0).console with outputRest := .silent } 0 := by decide
theorem witness_UnansweredCallsNeverComplete_prompt :
    let s : State := { withPrompt (at3000 0) [0x3E, 0x20] with console := silentAfter [.char 0x79] [.ok] }
    1 < s.inPrompt.length ∧ SilentAfter s.console 1 := by decide
theorem witness_UnansweredCallsNeverComplete_echo :
    let s : State := { withPrompt (at3000 0) [0x3E, 0x20] with console := silentAfter [.char 0x79] [.ok, .ok] }
    s.console.inputs = .char 0x79 :: [] ∧ SilentAfter s.console s.inPrompt.length := by decide
theorem witness_OutWritesLowByte :
    AcceptsCalls (at3000 0).console 1 ∧ FailsAfter (withDevices (at3000 0) [] [.fail]).console 0 := by decide
theorem witness_PutsWritesString :
    (∀ k < 2, stringWord stringMachine k ≠ 0) ∧ stringWord stringMachine 2 = 0 ∧
      AcceptsCalls stringMachine.console 2 := by decide
theorem witness_PutsWritesString_empty :
    (∀ k < 0, stringWord (at3000 0) k ≠ 0) ∧ stringWord (at3000 0) 0 = 0 ∧
      AcceptsCalls (at3000 0).console 0 := by decide
theorem witness_PutsStopsAtFailure :
    (∀ k ≤ 1, stringWord stringMachine k ≠ 0) ∧ FailsAfter (withDevices stringMachine [] [.ok, .fail]).console 1 ∧
      (∀ k ≤ 1, stringWord (withDevices stringMachine [] [.ok, .fail]) k ≠ 0) ∧
      SilentAfter { stringMachine.console with outputs := [.ok], outputRest := .silent } 1 := by decide
theorem witness_InPromptsReadsEchoes :
    (withDevices (at3000 0) [.char 0x79] [.ok]).console.inputs = .char 0x79 :: [] ∧
      AcceptsCalls (withDevices (at3000 0) [.char 0x79] [.ok]).console
        ((withDevices (at3000 0) [.char 0x79] [.ok]).inPrompt.length + 1) := by decide
theorem witness_InStopsAtFailure_prompt :
    let s : State := { withDevices (at3000 0) [] [.fail] with inPrompt := [0x3E] }
    0 < s.inPrompt.length ∧ FailsAfter s.console 0 := by decide
theorem witness_InStopsAtFailure_read :
    let s : State := withDevices (at3000 0) [.fail] []
    AcceptsCalls s.console s.inPrompt.length ∧ s.console.inputs = .fail :: [] := by decide
theorem witness_InStopsAtFailure_echo :
    let s : State := withDevices (at3000 0) [.char 0x79] [.fail]
    FailsAfter s.console s.inPrompt.length ∧ s.console.inputs = .char 0x79 :: [] := by decide
theorem witness_PutspWritesPackedString :
    (∀ j < 3, packedChar stringMachine j ≠ 0) ∧ packedChar stringMachine 3 = 0 ∧
      AcceptsCalls stringMachine.console 3 := by decide
theorem witness_PutspStopsAtFailure :
    (∀ j ≤ 2, packedChar (withDevices stringMachine [] [.ok, .ok, .fail]) j ≠ 0) ∧
      FailsAfter (withDevices stringMachine [] [.ok, .ok, .fail]).console 2 ∧
      SilentAfter { stringMachine.console with outputs := [.ok, .ok], outputRest := .silent } 2 := by decide
theorem witness_HaltStops :
    (at3000 0xFF25).status = .running ∧
      (at3000 0xFF25).memRead (at3000 0xFF25).pc &&& 0xF0FF = 0xF025 := by decide
theorem witness_BadVectorIsFatal :
    ((0x1F : Byte).toNat < 0x20 ∨ 0x25 < (0x1F : Byte).toNat) ∧ ((0x26 : Byte).toNat < 0x20 ∨ 0x25 < (0x26 : Byte).toNat) ∧
      (at3000 0xF026).status = .running ∧ (at3000 0xF026).memRead (at3000 0xF026).pc = 0xF026 ∧
      (0xF026 : Word) &&& 0xF000 = 0xF000 ∧ 0x25 < ((0xF026 : Word).extractLsb' 0 8).toNat := by decide
theorem witness_TrapWritesNothingElse : ∃ t, exec (.trap 0 0x25) (at3000 0) = .next t := ⟨_, rfl⟩
theorem witness_ReservedOpcodesAreFatal :
    (at3000 0x8000).status = .running ∧ (at3000 0x8000).memRead (at3000 0x8000).pc = 0x8000 ∧
      (0x8FFF : Word) &&& 0xF000 = 0x8000 ∧ (0xD000 : Word) &&& 0xF000 = 0xD000 := by decide
theorem witness_FatalChangesNothingElse :
    ∃ t r, (at3000 0x8000).status = .running ∧ step (at3000 0x8000) = .next t ∧ t.status = .faulted r :=
  ⟨_, _, by decide, rfl, rfl⟩
theorem witness_IOFailureIsPrecise :
    ∃ t r, (withDevices (at3000 0xF021) [] [.fail]).status = .running ∧
      step (withDevices (at3000 0xF021) [] [.fail]) = .next t ∧ t.status = .ioFailed r :=
  ⟨_, _, by decide, rfl, rfl⟩
theorem witness_CondWrittenOnlyByFlagUpdaters :
    (∃ t, exec (.add 0 0 0) State.reset = .next t) ∧ (∃ t, exec (.jsr 0) State.reset = .next t) ∧
      updatesFlags (.add 0 0 0) = true ∧ updatesFlags (.jsr 0) = false :=
  ⟨⟨_, rfl⟩, ⟨_, rfl⟩, rfl, rfl⟩
theorem witness_OnlyBranchReadsCond : ∀ m off, Instr.trap 0 0x22 ≠ .br m off := by intros; simp
theorem witness_PcAfterInstruction : ∃ t, exec (.br 0b111 0x1FF) State.reset = .next t := ⟨_, rfl⟩
theorem witness_RegistersWrittenAsTabled : ∃ t, exec (.jsrr 7) State.reset = .next t := ⟨_, rfl⟩
theorem witness_OnlyStoresWriteMemory :
    (∃ t, exec (.str 0 0 0) State.reset = .next t) ∧ storeAddress (.str 0 0 0) State.reset = some 0 ∧
      (∃ t, exec (.ld 0 0) State.reset = .next t) ∧ storeAddress (.ld 0 0) State.reset = none :=
  ⟨⟨_, rfl⟩, by decide, ⟨_, rfl⟩, rfl⟩
theorem witness_OnlyTrapCallsDevices :
    (∃ t, exec (.rti 0) State.reset = .next t) ∧ ∀ u v, Instr.rti 0 ≠ .trap u v := ⟨⟨_, rfl⟩, by intros; simp⟩

/-- A memory whose cells below `n` all hold 1. -/
def ones (n : Nat) : Memory := { cells := (List.range n).map fun k => (k, 1) }

theorem readByte_ones {n k : Nat} (h : k < n) : (ones n).readByte k = 1 := by
  have key : ∀ l : List Nat, k ∈ l → lookupCell k (l.map fun j => (j, 1)) = 1 := by
    intro l
    induction l with
    | nil => simp
    | cons j l ih =>
      intro hk
      by_cases hj : j = k
      · simp [lookupCell, hj]
      · simpa [lookupCell, hj] using ih (by simpa [Ne.symm hj] using hk)
  exact key _ (List.mem_range.mpr h)

/-- The stuck side of the statements about strings that never end is met by a memory full of ones. -/
theorem witness_PutsNeverEndsExactly :
    let s : State := { State.reset with mem := ones Config.cellCount }
    (∀ a : Word, s.memRead a = 0x0101) ∧ AcceptsForEver s.console := by
  refine ⟨fun a => ?_, by decide⟩
  change (ones Config.cellCount).readWord a = 0x0101
  rw [Memory.readWord, readByte_ones (highCell_lt a), readByte_ones (lowCell_lt a)]
  decide

end Sys2Proof.Tests
end

section
/-! Sign extension (00_scope.md R8): what `sext` does to the unsigned and to the signed value of a field. -/

namespace Sys2Proof.Proofs

open Sys2Proof.Machine

/-- R8's formula, with the field's top bit as its sign. -/
theorem toNat_sext {n : Nat} (hn : n ≤ 16) (f : BitVec n) :
    (sext f).toNat = if f.msb then f.toNat + (65536 - 2 ^ n) else f.toNat := by
  have widened : (f.setWidth 16).toNat = f.toNat := BitVec.toNat_setWidth_of_le hn
  rw [sext, BitVec.toNat_signExtend, widened]
  cases f.msb with
  | false => simp
  | true => simp

@[simp] theorem toInt_sext {n : Nat} (hn : n ≤ 16) (f : BitVec n) : (sext f).toInt = f.toInt :=
  BitVec.toInt_signExtend_of_le hn

/-- Settles O17: bit `n - 1` is the field's top bit, so R8's formula is `toNat_sext`; the signed value is
`toInt_sext`. -/
theorem signExtensionFormula : Obligations.SignExtensionFormula := by
  intro n _ hn f
  rw [← BitVec.msb_eq_getLsbD_last]
  exact ⟨toNat_sext hn f, toInt_sext hn f⟩

end Sys2Proof.Proofs
end

section
/-! Machine start, the loader's frame, and the host's access to the state (10_state.md R37 to R46). -/

namespace Sys2Proof.Proofs

open Sys2Proof.Machine Sys2Proof.Safety

/-! ## Machine start and loading -/

/-- Placing words from `a` on changes memory alone. -/
theorem loadFrom_eq (s : State) (a : Word) (words : List Word) :
    s.loadFrom a words = { s with mem := (s.loadFrom a words).mem } := by
  induction words generalizing s a with
  | nil => rfl
  | cons w words ih => exact ih (s.memWrite a w) (a + 1)

/-- An image that the loader takes is placed from its origin on, and PC is moved there (R251). -/
theorem loadImage_eq_next {s t : State} {origin : Word} {words : List Word}
    (h : s.loadImage (origin :: words) = .next t) : t = (s.loadFrom origin words).setPc origin := by
  by_cases fits : origin.toNat + words.length ≤ 65536
  · rw [State.loadImage, if_pos fits] at h
    exact (Host.Outcome.next.inj h).symm
  · rw [State.loadImage, if_neg fits] at h
    cases h

/-- Settles O1: the start values are the fields of `State.start`, and the loader's frame is `loadFrom_eq`. -/
theorem machineStartValues : Obligations.MachineStartValues := by
  refine ⟨fun params memInit console => ⟨rfl, rfl, rfl, rfl, fun _ => rfl, fun _ => rfl, ?_, fun _ => rfl⟩, rfl⟩
  intro origin words t h
  rw [loadImage_eq_next h, loadFrom_eq]
  exact ⟨rfl, rfl, rfl⟩

/-- Settles O2: the memory after reset is canonical, and the status `running` claims nothing. -/
theorem resetMeetsInvariant : Obligations.ResetMeetsInvariant := ⟨Memory.wf_reset, trivial⟩

/-! ## Host access -/

/-- A word is its two bytes, the high one first (R56). -/
theorem wordOfBytes_highByte_lowByte (w : Word) : wordOfBytes (highByte w) (lowByte w) = w := by
  unfold wordOfBytes highByte lowByte
  rw [BitVec.extractLsb'_append_extractLsb'_eq_extractLsb' (by omega)]
  exact BitVec.extractLsb'_eq_self

/-- A written word is read back (R52). -/
theorem readWord_writeWord_self (m : Memory) (a v : Word) : (m.writeWord a v).readWord a = v := by
  have distinct : lowCell a ≠ highCell a := by unfold lowCell highCell; omega
  simp [Memory.readWord, Memory.readByte_writeWord, distinct, wordOfBytes_highByte_lowByte]

/-- The flag is read off its own layout (R27). -/
theorem condOfBits_bits (c : Cond) : condOfBits c.bits = some c := by
  cases c <;> rfl

/-- A value of the layout that sets exactly one bit is the layout of a flag (R28). -/
theorem exists_bits_eq {b : BitVec 3} (h : b = 0b100 ∨ b = 0b010 ∨ b = 0b001) : ∃ c : Cond, c.bits = b := by
  rcases h with rfl | rfl | rfl
  · exact ⟨.n, rfl⟩
  · exact ⟨.z, rfl⟩
  · exact ⟨.p, rfl⟩

/-- A host write of a flag's layout is `setCond` of that flag. -/
theorem hostWriteCond_bits (s : State) (c : Cond) : s.hostWriteCond c.bits = .next (s.setCond c) := by
  simp only [State.hostWriteCond, condOfBits_bits]

/-- Every other value names no flag. -/
theorem condOfBits_eq_none {b : BitVec 3} (h : ¬ (b = 0b100 ∨ b = 0b010 ∨ b = 0b001)) : condOfBits b = none := by
  obtain ⟨hn, hz, hp⟩ : b ≠ 0b100 ∧ b ≠ 0b010 ∧ b ≠ 0b001 := by simpa only [not_or] using h
  simp only [condOfBits, if_neg hn, if_neg hz, if_neg hp]

/-- Settles O13: each clause is the law of the operation the port stands for. -/
theorem hostAccessReadsBack : Obligations.HostAccessReadsBack := by
  intro s
  refine ⟨fun r v => ⟨State.setReg_reg_self s r v, rfl⟩, fun _ => rfl,
    fun a v => readWord_writeWord_self s.mem a v, fun b hb => ?_, fun b hb => ?_⟩
  · obtain ⟨c, rfl⟩ := exists_bits_eq hb
    exact ⟨s.setCond c, hostWriteCond_bits s c, rfl, rfl, rfl, rfl⟩
  · simp only [State.hostWriteCond, condOfBits_eq_none hb]

end Sys2Proof.Proofs
end

section
/-! The run port and the machine's run of `k` steps (10_state.md R45). -/

namespace Sys2Proof.Proofs

open Sys2Proof.Machine Sys2Proof.Safety

/-- A run of `k + 1` steps answers `t` exactly when a first step answers a state from which `k` steps do. -/
theorem coreRun_succ_eq_next (M : Host.Core) {k : Nat} {s t : M.State} :
    M.run (k + 1) s = .next t ↔ ∃ u, M.step s = .next u ∧ M.run k u = .next t := by
  rw [Host.Core.run]
  cases M.step s <;> simp

/-- `coreRun_succ_eq_next` for this machine, whose step is `step`. -/
theorem run_succ_eq_next {k : Nat} {s t : State} :
    Host.Core.run Sys2Proof.core (k + 1) s = .next t ↔
      ∃ u, step s = .next u ∧ Host.Core.run Sys2Proof.core k u = .next t :=
  coreRun_succ_eq_next Sys2Proof.core

/-- No number of steps changes a stopped machine (R83). -/
theorem run_of_stopped {s : State} (h : s.status ≠ .running) (k : Nat) :
    Host.Core.run Sys2Proof.core k s = .next s := by
  induction k with
  | zero => rfl
  | succ k ih => exact run_succ_eq_next.mpr ⟨s, step_of_stopped h, ih⟩

/-- With fuel left, the run port takes a step and goes on if the machine still runs. -/
theorem runPort_succ_of_step {s u : State} (h : step s = .next u) (fuel : Nat) :
    runPort (fuel + 1) s = if u.status = .running then runPort fuel u else some (.next u) := by
  rw [runPort, stepPort_eq_next.mpr ⟨h, rfl⟩]
  by_cases hu : u.status = .running <;> simp [State.continues, hu]

/-- The run port answers a state only after a step that answers one. -/
theorem step_of_runPort_succ {fuel : Nat} {s t : State} (h : runPort (fuel + 1) s = some (.next t)) :
    ∃ u, step s = .next u := by
  cases hs : step s with
  | next u => exact ⟨u, rfl⟩
  | fault r => simp [runPort, stepPort, hs] at h
  | refused r => simp [runPort, stepPort, hs] at h

/-- What the run port returns is a stopped machine that some number of steps reaches. -/
theorem run_of_runPort {fuel : Nat} {s t : State} (h : runPort fuel s = some (.next t)) :
    t.status ≠ .running ∧ ∃ k, Host.Core.run Sys2Proof.core k s = .next t := by
  induction fuel generalizing s with
  | zero => simp [runPort] at h
  | succ fuel ih =>
    obtain ⟨u, hu⟩ := step_of_runPort_succ h
    rw [runPort_succ_of_step hu] at h
    split at h
    case isTrue =>
      obtain ⟨stopped, k, hk⟩ := ih h
      exact ⟨stopped, k + 1, run_succ_eq_next.mpr ⟨u, hu, hk⟩⟩
    case isFalse stopped =>
      cases h
      exact ⟨stopped, 1, run_succ_eq_next.mpr ⟨t, hu, rfl⟩⟩

/-- Where `k` steps reach a stopped machine, the run port returns it with fuel `k + 1`. -/
theorem runPort_of_run {k : Nat} {s t : State} (h : Host.Core.run Sys2Proof.core k s = .next t)
    (stopped : t.status ≠ .running) : runPort (k + 1) s = some (.next t) := by
  induction k generalizing s with
  | zero =>
    cases h
    rw [runPort_succ_of_step (step_of_stopped stopped), if_neg stopped]
  | succ k ih =>
    obtain ⟨u, hu, hk⟩ := run_succ_eq_next.mp h
    rw [runPort_succ_of_step hu]
    split
    case isTrue => exact ih hk
    case isFalse already =>
      rw [run_of_stopped already] at hk
      rw [Host.Outcome.next.inj hk]

/-- Settles O12: `run_of_runPort` one way, by induction on the fuel; `runPort_of_run` the other, by induction on the
number of steps. -/
theorem runReturnsOnlyStopped : Obligations.RunReturnsOnlyStopped := fun _ _ =>
  ⟨⟨fun ⟨_, h⟩ => run_of_runPort h, fun ⟨stopped, k, h⟩ => ⟨k + 1, runPort_of_run h stopped⟩⟩,
    fun _ h stopped => runPort_of_run h stopped⟩

end Sys2Proof.Proofs
end

section
/-! The flag of a value, and the branch test in the bits of the mask (10_state.md R30, 41_control.md R120). -/

namespace Sys2Proof.Proofs

open Sys2Proof.Machine Sys2Proof.Safety

/-- The model's flag of a value is its flag in the signed reading (R30). -/
theorem flagOf_condOf (v : Word) : FlagOf v (condOf v) := by
  have zero : v = 0#16 ↔ v.toInt = 0 := by rw [← BitVec.toInt_inj]; simp
  have sign : v.getLsbD 15 = decide (v.toInt < 0) := by
    rw [← BitVec.msb_eq_toInt, BitVec.msb_eq_getLsbD_last]
  unfold FlagOf condOf
  rw [sign]
  by_cases hz : v = 0#16
  · simp [hz]
  · have nonzero : v.toInt ≠ 0 := fun h => hz (zero.mpr h)
    by_cases hn : v.toInt < 0
    · have : ¬ 0 < v.toInt := by omega
      simp [hz, hn, nonzero, this]
    · have : 0 < v.toInt := by omega
      simp [hz, hn, nonzero, this]

/-- Every flag is one of the three one-bit values (R27). -/
theorem bits_oneHot (c : Cond) : c.bits = 0b100 ∨ c.bits = 0b010 ∨ c.bits = 0b001 := by
  cases c <;> decide

/-- Settles O19: `setCC` is `setCond` of the value's flag. -/
theorem setCCWritesTheFlag : Obligations.SetCCWritesTheFlag := fun _ v =>
  ⟨flagOf_condOf v, rfl, bits_oneHot _⟩

end Sys2Proof.Proofs
end

section
/-! Everything one instruction can do when it answers a next state, said once, and the tables of 10_state.md
R21, R24 and R31 read off it. -/

namespace Sys2Proof.Proofs

open Sys2Proof.Machine Sys2Proof.Safety

/-! ## TRAP (44_trap.md R191) -/

/-- What every TRAP with the vector `v` leaves: the registers but those the vector may write, PC, COND, memory and the
prompt. -/
structure TrapFrame (v : Byte) (s t : State) : Prop where
  regs : KeepsRegsBut s t (if v = 0x20 ∨ v = 0x23 then [0] else [])
  pc : t.pc = s.pc
  cond : t.cond = s.cond
  mem : t.mem = s.mem
  inPrompt : t.inPrompt = s.inPrompt

/-- A service that writes the console and the status alone is within the frame of every vector. -/
theorem TrapFrame.of_console_status {v : Byte} {s t : State}
    (h : t = { s with console := t.console, status := t.status }) : TrapFrame v s t := by
  rw [h]
  exact ⟨fun _ _ => rfl, rfl, rfl, rfl, rfl⟩

theorem TrapFrame.of_grown {v : Byte} {s t : State} (h : ConsoleGrown s t) : TrapFrame v s t := by
  obtain ⟨-, h⟩ := h
  rw [h]
  exact .of_console_status rfl

theorem TrapFrame.of_failed {v w : Byte} {s t : State} (h : OutputFailed w s t) : TrapFrame v s t := by
  obtain ⟨-, h⟩ := h
  rw [h]
  exact .of_console_status rfl

/-- GETC and IN may write R0 besides the console (R193). -/
theorem TrapFrame.of_setReg {v : Byte} (hv : v = 0x20 ∨ v = 0x23) (s : State) (c : Console) (w : Word) :
    TrapFrame v s (({ s with console := c } : State).setReg trapReg w) := by
  refine ⟨fun r hr => ?_, rfl, rfl, rfl, rfl⟩
  rw [if_pos hv, List.mem_singleton] at hr
  exact State.setReg_reg_of_ne _ w hr

theorem serviceGetc_frame {s t : State} (h : serviceGetc s = .next t) : TrapFrame 0x20 s t := by
  rcases inputThen_eq_next h with ⟨b, s', hin, hk⟩ | ⟨s', hin, rfl⟩
  · obtain ⟨rfl, -⟩ := State.input_eq_char hin
    cases hk
    exact .of_setReg (.inl rfl) _ _ _
  · obtain ⟨rfl, -⟩ := State.input_eq_fail hin
    exact .of_console_status rfl

theorem serviceOut_frame {v : Byte} {s t : State} (h : serviceOut s = .next t) : TrapFrame v s t := by
  rcases emitThen_eq_next h with ⟨s', hem, hk⟩ | ⟨s', hem, rfl⟩
  · cases hk
    exact .of_grown (.of_ok hem (.refl _))
  · exact .of_failed (.of_fail hem)

theorem serviceIn_frame {s t : State} (h : serviceIn s = .next t) : TrapFrame 0x23 s t := by
  rcases emitAllThen_eq_next _ h with hf | ⟨s1, h1, -, -, hk⟩
  · exact .of_failed hf
  rw [h1] at hk
  rcases inputThen_eq_next hk with ⟨b, s2, hin, hk⟩ | ⟨s2, hin, rfl⟩
  · obtain ⟨rfl, -⟩ := State.input_eq_char hin
    rcases emitThen_eq_next hk with ⟨s3, hem, hk⟩ | ⟨s3, hem, rfl⟩
    · obtain ⟨rfl, -⟩ := State.emit_eq_ok hem
      cases hk
      exact .of_setReg (.inr rfl) _ _ _
    · obtain ⟨rfl, -⟩ := State.emit_eq_fail hem
      exact .of_console_status rfl
  · obtain ⟨rfl, -⟩ := State.input_eq_fail hin
    exact .of_console_status rfl

/-- Which service each vector names (R181). -/
theorem serviceOf_eq_getc {v : Byte} (h : serviceOf v = some .getc) : v = 0x20 := by revert v; decide
theorem serviceOf_eq_inp {v : Byte} (h : serviceOf v = some .inp) : v = 0x23 := by revert v; decide

/-- Every TRAP that answers a next state keeps to the frame of its vector. -/
theorem execTrap_frame {u : BitVec 4} {v : Byte} {s t : State} (h : execTrap u v s = .next t) :
    TrapFrame v s t := by
  unfold execTrap at h
  split at h
  case h_1 hv => exact serviceOf_eq_getc hv ▸ serviceGetc_frame h
  case h_2 => exact serviceOut_frame h
  case h_3 => exact (putsLoop_eq_next _ _ _ _ h).elim .of_grown .of_failed
  case h_4 hv => exact serviceOf_eq_inp hv ▸ serviceIn_frame h
  case h_5 => exact (putspLoop_eq_next _ _ _ _ h).elim .of_grown .of_failed
  case h_6 => cases h; exact .of_console_status rfl
  case h_7 => cases h; exact .of_console_status rfl

/-! ## Control transfers -/

/-- BR writes PC alone, with the value of the table of R24. -/
theorem execBr_eq (m : BitVec 3) (off : BitVec 9) (s : State) :
    execBr m off s = .next (s.setPc (pcAfter (.br m off) s)) := by
  by_cases untaken : m &&& s.cond.bits = 0
  · have : branchTaken m s.cond = false := decide_eq_false (not_not.mpr untaken)
    rw [execBr, this, pcAfter, if_pos untaken]; rfl
  · have : branchTaken m s.cond = true := decide_eq_true untaken
    rw [execBr, this, pcAfter, if_neg untaken]; rfl

/-- The base of JSRR, read after the link: R7 then holds a + 1 (R123). -/
theorem link_reg (s : State) (b : Reg) : s.link.reg b = pcAfter (.jsrr b) s := by
  by_cases h : b = 7
  · subst h; exact State.setReg_reg_self s 7 s.pc
  · rw [pcAfter, if_neg h]; exact State.setReg_reg_of_ne s s.pc h

/-! ## The inversion of exec -/

/-- The ways in which the instruction `i`, run on the handler's state `s`, can lead to `t`, each with what the tables of
the spec say of `i`. -/
inductive Effect (i : Instr) (s t : State) : Prop
  /-- The operate instructions, the loads and LEA. -/
  | writesResult (dr : Reg) (v : Word) (eq : t = s.writeResult dr v) (flags : updatesFlags i = true)
      (regs : regsWritten i = [dr]) (pc : pcAfter i s = s.pc) (store : storeAddress i s = none)
  /-- The stores. -/
  | stores (ea v : Word) (eq : t = s.memWrite ea v) (flags : updatesFlags i = false) (regs : regsWritten i = [])
      (pc : pcAfter i s = s.pc) (store : storeAddress i s = some ea) (word : storedWord i s = some v)
  /-- BR and JMP. -/
  | jumps (eq : t = s.setPc (pcAfter i s)) (flags : updatesFlags i = false) (regs : regsWritten i = [])
      (store : storeAddress i s = none)
  /-- JSR and JSRR. -/
  | calls (eq : t = s.link.setPc (pcAfter i s)) (flags : updatesFlags i = false) (regs : regsWritten i = [linkReg])
      (store : storeAddress i s = none)
  /-- RTI and RES. -/
  | reserved (eq : t = s.raiseIllFormed (encode i)) (flags : updatesFlags i = false) (regs : regsWritten i = [])
      (pc : pcAfter i s = s.pc) (store : storeAddress i s = none)
  /-- TRAP. -/
  | traps (u : BitVec 4) (v : Byte) (eq : i = .trap u v) (frame : TrapFrame v s t)

/-- Everything `exec` can do when it answers a next state. -/
theorem exec_effect {i : Instr} {s t : State} (h : exec i s = .next t) : Effect i s t := by
  cases i with
  | add | addImm | and | andImm | not | ld | ldi | ldr | lea =>
    cases h; exact .writesResult _ _ rfl rfl rfl rfl rfl
  | st | sti | str => cases h; exact .stores _ _ rfl rfl rfl rfl rfl rfl
  | br m off =>
    have ht := Host.Outcome.next.inj ((execBr_eq m off s).symm.trans h)
    exact .jumps ht.symm rfl rfl rfl
  | jmp => cases h; exact .jumps rfl rfl rfl rfl
  | jsr => cases h; exact .calls rfl rfl rfl rfl
  | jsrr b => cases h; exact .calls (by rw [link_reg]) rfl rfl rfl
  | rti | res => cases h; exact .reserved rfl rfl rfl rfl rfl
  | trap u v => exact .traps u v rfl (execTrap_frame h)

/-- A next state in which the register file is the old one keeps every register. -/
theorem keepsRegsBut_of_regs {s t : State} (h : t.regs = s.regs) (l : List Reg) : KeepsRegsBut s t l :=
  fun r _ => State.reg_congr h r

/-- Settles O55, by the ways an instruction can act: the flags are written by `writeResult` alone. -/
theorem condWrittenOnlyByFlagUpdaters : Obligations.CondWrittenOnlyByFlagUpdaters := by
  intro i s t h
  cases exec_effect h with
  | writesResult dr v eq flags regs =>
    subst eq
    refine ⟨fun _ => ⟨dr, regs, ?_⟩, by simp [flags]⟩
    simpa using flagOf_condOf v
  | stores _ _ eq flags | jumps eq flags | calls eq flags | reserved eq flags =>
    subst eq
    exact ⟨by simp [flags], fun _ => rfl⟩
  | traps u v eq frame =>
    subst eq
    exact ⟨by simp [updatesFlags], fun _ => frame.cond⟩

/-- Settles O57: PC is written by the transfers alone, with the value of the table. -/
theorem pcAfterInstruction : Obligations.PcAfterInstruction := by
  intro i s t h
  cases exec_effect h with
  | writesResult _ _ eq _ _ pc | stores _ _ eq _ _ pc | reserved eq _ _ pc => rw [eq, pc]; rfl
  | jumps eq | calls eq => rw [eq, State.setPc_pc]
  | traps u v eq frame => rw [frame.pc, eq]; rfl

/-- Settles O58: a result goes to DR, a link to R7 and an input code to R0; nothing else writes a register. -/
theorem registersWrittenAsTabled : Obligations.RegistersWrittenAsTabled := by
  intro i s t h
  cases exec_effect h with
  | writesResult dr v eq _ regs =>
    rw [eq, regs]
    exact fun r hr => State.writeResult_reg_of_ne s v (by simpa using hr)
  | stores _ _ eq | jumps eq | reserved eq => subst eq; exact keepsRegsBut_of_regs rfl _
  | calls eq _ regs =>
    rw [eq, regs]
    exact fun r hr => State.setReg_reg_of_ne s s.pc (by simpa using hr)
  | traps u v eq frame => rw [eq]; exact frame.regs

/-- Settles O60: of the ways an instruction can act, TRAP alone touches the console. -/
theorem onlyTrapCallsDevices : Obligations.OnlyTrapCallsDevices := by
  intro i s t h notTrap
  cases exec_effect h with
  | writesResult _ _ eq | stores _ _ eq | jumps eq | calls eq | reserved eq => rw [eq]; rfl
  | traps u v eq => exact absurd eq (notTrap u v)

end Sys2Proof.Proofs
end

section
/-! COND is read by BR alone (10_state.md R32): every handler but BR's commutes with a change of COND. -/

namespace Sys2Proof.Proofs

open Sys2Proof.Machine Sys2Proof.Safety

/-! ## The string loops, by what the word at hand says (44_trap.md R186, R188) -/

section
variable {fuel : Nat} {i : Word} {s : State}

theorem putsLoop_of_terminator (h : s.memRead i = 0) : putsLoop (fuel + 1) i s = .next s := if_pos h

theorem putsLoop_of_code (h : s.memRead i ≠ 0) :
    putsLoop (fuel + 1) i s = emitThen 0x22 (lowByte (s.memRead i)) s (putsLoop fuel (i + 1)) := if_neg h

theorem putspLoop_of_terminator (low : lowByte (s.memRead i) = 0) : putspLoop (fuel + 1) i s = .next s := if_pos low

theorem putspLoop_of_one_code (low : lowByte (s.memRead i) ≠ 0) (high : highByte (s.memRead i) = 0) :
    putspLoop (fuel + 1) i s = emitThen 0x24 (lowByte (s.memRead i)) s .next := by
  simp only [putspLoop, if_neg low, if_pos high]

theorem putspLoop_of_two_codes (low : lowByte (s.memRead i) ≠ 0) (high : highByte (s.memRead i) ≠ 0) :
    putspLoop (fuel + 1) i s = emitThen 0x24 (lowByte (s.memRead i)) s fun s' =>
      emitThen 0x24 (highByte (s.memRead i)) s' (putspLoop fuel (i + 1)) := by
  simp only [putspLoop, if_neg low, if_neg high]

end

/-! ## The console ports and the loops, with another COND -/

/-- The answer of an output call, with the state after it changed by `f`. -/
def mapEmit (f : State → State) : EmitResult → EmitResult
  | .ok s => .ok (f s)
  | .fail s => .fail (f s)
  | .noAnswer => .noAnswer

/-- The answer of an input call, with the state after it changed by `f`. -/
def mapInput (f : State → State) : InputResult → InputResult
  | .char b s => .char b (f s)
  | .fail s => .fail (f s)
  | .noAnswer => .noAnswer

/-- The output device does not see COND. -/
theorem emit_setCond (s : State) (c : Cond) (b : Byte) :
    (s.setCond c).emit b = mapEmit (·.setCond c) (s.emit b) := by
  rcases s with ⟨regs, pc, cond, mem, status, inPrompt, inputs, _ | ⟨_ | _, outputs⟩, _ | _, written⟩ <;> rfl

/-- The input device does not see COND. -/
theorem input_setCond (s : State) (c : Cond) : (s.setCond c).input = mapInput (·.setCond c) s.input := by
  rcases s with ⟨regs, pc, cond, mem, status, inPrompt, _ | ⟨_ | _, inputs⟩, outputs, rest, written⟩ <;> rfl

/-- An output call commutes with a change of COND where its continuation does. -/
theorem emitThen_setCond {v b : Byte} {s : State} {c : Cond} {k : State → Out}
    (hk : ∀ s', k (s'.setCond c) = mapNext (·.setCond c) (k s')) :
    emitThen v b (s.setCond c) k = mapNext (·.setCond c) (emitThen v b s k) := by
  simp only [emitThen, emit_setCond]
  cases s.emit b with
  | ok s' => exact hk s'
  | fail s' => rfl
  | noAnswer => rfl

/-- An input call commutes with a change of COND where its continuation does. -/
theorem inputThen_setCond {v : Byte} {s : State} {c : Cond} {k : Byte → State → Out}
    (hk : ∀ b s', k b (s'.setCond c) = mapNext (·.setCond c) (k b s')) :
    inputThen v (s.setCond c) k = mapNext (·.setCond c) (inputThen v s k) := by
  simp only [inputThen, input_setCond]
  cases s.input with
  | char b s' => exact hk b s'
  | fail s' => rfl
  | noAnswer => rfl

theorem putsLoop_setCond (fuel : Nat) (i : Word) (s : State) (c : Cond) :
    putsLoop fuel i (s.setCond c) = mapNext (·.setCond c) (putsLoop fuel i s) := by
  induction fuel generalizing i s with
  | zero => rfl
  | succ fuel ih =>
    by_cases h : s.memRead i = 0
    · rw [putsLoop_of_terminator h]
      exact putsLoop_of_terminator (s := s.setCond c) h
    · rw [putsLoop_of_code h]
      exact (putsLoop_of_code (s := s.setCond c) h).trans (emitThen_setCond (ih _))

theorem putspLoop_setCond (fuel : Nat) (i : Word) (s : State) (c : Cond) :
    putspLoop fuel i (s.setCond c) = mapNext (·.setCond c) (putspLoop fuel i s) := by
  induction fuel generalizing i s with
  | zero => rfl
  | succ fuel ih =>
    by_cases low : lowByte (s.memRead i) = 0
    · rw [putspLoop_of_terminator low]
      exact putspLoop_of_terminator (s := s.setCond c) low
    · by_cases high : highByte (s.memRead i) = 0
      · rw [putspLoop_of_one_code low high]
        exact (putspLoop_of_one_code (s := s.setCond c) low high).trans (emitThen_setCond fun _ => rfl)
      · rw [putspLoop_of_two_codes low high]
        exact (putspLoop_of_two_codes (s := s.setCond c) low high).trans
          (emitThen_setCond fun _ => emitThen_setCond (ih _))

theorem emitAllThen_setCond {v : Byte} {c : Cond} {k : State → Out}
    (hk : ∀ s', k (s'.setCond c) = mapNext (·.setCond c) (k s')) (codes : List Byte) (s : State) :
    emitAllThen v codes (s.setCond c) k = mapNext (·.setCond c) (emitAllThen v codes s k) := by
  induction codes generalizing s with
  | nil => exact hk s
  | cons b codes ih => exact emitThen_setCond ih

/-! ## TRAP and the other handlers -/

/-- No service reads COND. -/
theorem execTrap_setCond (u : BitVec 4) (v : Byte) (s : State) (c : Cond) :
    execTrap u v (s.setCond c) = mapNext (·.setCond c) (execTrap u v s) := by
  unfold execTrap
  cases serviceOf v with
  | none => rfl
  | some service =>
    cases service with
    | getc => exact inputThen_setCond fun _ _ => rfl
    | out => exact emitThen_setCond fun _ => rfl
    | puts => exact putsLoop_setCond _ _ s c
    | inp =>
      exact emitAllThen_setCond (fun _ => inputThen_setCond fun _ _ => emitThen_setCond fun _ => rfl) _ s
    | putsp => exact putspLoop_setCond _ _ s c
    | halt => rfl

/-- Settles O56: a handler that writes the flags writes over the change of COND, TRAP is `execTrap_setCond`, and the
others carry COND along. -/
theorem onlyBranchReadsCond : Obligations.OnlyBranchReadsCond := by
  intro i s c notBr
  cases i with
  | br m off => exact absurd rfl (notBr m off)
  | trap u v => exact execTrap_setCond u v s c
  | add | addImm | and | andImm | not | ld | ldi | ldr | lea => rfl
  | jmp | jsr | jsrr | st | sti | str | rti | res => rfl

end Sys2Proof.Proofs
end

section
/-! Memory as a store of words (20_memory.md R51, R52), the data that its reads fix (log 6), and the instructions that
write it (R54, R66). -/

namespace Sys2Proof.Proofs

open Sys2Proof.Machine Sys2Proof.Safety

/-! ## A word write, word by word -/

/-- Different words share no cell. -/
theorem cells_disjoint {a b : Word} (h : b ≠ a) :
    highCell b ≠ highCell a ∧ highCell b ≠ lowCell a ∧ lowCell b ≠ highCell a ∧ lowCell b ≠ lowCell a := by
  have : b.toNat ≠ a.toNat := fun e => h (BitVec.eq_of_toNat_eq e)
  unfold highCell lowCell
  omega

/-- A word write changes no other word (R52). -/
theorem readWord_writeWord_of_ne (m : Memory) {a b : Word} (v : Word) (h : b ≠ a) :
    (m.writeWord a v).readWord b = m.readWord b := by
  obtain ⟨highHigh, highLow, lowHigh, lowLow⟩ := cells_disjoint h
  simp only [Memory.readWord, Memory.readByte_writeWord, if_neg highHigh, if_neg highLow, if_neg lowHigh,
    if_neg lowLow]

/-- Settles O15: the written cells are those of the word at `a`, which no other word shares. -/
theorem memoryWriteThenRead : Obligations.MemoryWriteThenRead := fun m a v =>
  ⟨readWord_writeWord_self m a v, fun _ => readWord_writeWord_of_ne m v⟩

/-! ## The canonical form is fixed by the reads -/

/-- In a list of rising cells each entry is what a lookup of its cell finds. -/
theorem lookupCell_of_mem {l : List Host.Cell} {c : Host.Cell} (rising : l.Pairwise (fun c d => c.1 < d.1))
    (h : c ∈ l) : lookupCell c.1 l = c.2 := by
  induction l with
  | nil => cases h
  | cons d l ih =>
    obtain ⟨below, rising⟩ := List.pairwise_cons.mp rising
    rcases List.mem_cons.mp h with rfl | h
    · exact if_pos rfl
    · exact (if_neg (below c h).ne).trans (ih rising h)

/-- A lookup that does not find the unlisted value finds an entry. -/
theorem mem_of_lookupCell_ne {l : List Host.Cell} {k : Nat} (h : lookupCell k l ≠ Config.unlistedByte) :
    (k, lookupCell k l) ∈ l := by
  induction l with
  | nil => exact absurd rfl h
  | cons d l ih =>
    obtain ⟨k', b⟩ := d
    by_cases hk : k' = k
    · simp [lookupCell, hk]
    · simp only [lookupCell, if_neg hk] at h ⊢
      exact List.mem_cons_of_mem _ (ih h)

/-- A canonical memory lists exactly the cells of the address space that do not read as the unlisted value. -/
theorem mem_cells_iff {m : Memory} (canonical : m.wf = true) (c : Host.Cell) :
    c ∈ m.cells ↔ c.1 < Config.cellCount ∧ c.2 ≠ Config.unlistedByte ∧ m.readByte c.1 = c.2 := by
  obtain ⟨rising, listed⟩ := (Memory.wf_iff m).mp canonical
  constructor
  · intro h
    exact ⟨(listed c h).1, (listed c h).2, lookupCell_of_mem rising h⟩
  · rintro ⟨-, ne, read⟩
    have found : (c.1, m.readByte c.1) ∈ m.cells := mem_of_lookupCell_ne (ne_of_eq_of_ne read ne)
    rwa [read] at found

/-- Canonical memories that read alike in every byte of the address space are the same data. -/
theorem eq_of_readByte_eq {m m' : Memory} (canonical : m.wf = true) (canonical' : m'.wf = true)
    (reads : ∀ k < Config.cellCount, m.readByte k = m'.readByte k) : m = m' := by
  have sameCells : ∀ c, c ∈ m.cells ↔ c ∈ m'.cells := fun c => by
    rw [mem_cells_iff canonical, mem_cells_iff canonical']
    exact and_congr_right fun inSpace => by rw [reads c.1 inSpace]
  have irreflexive : Std.Irrefl (fun c d : Host.Cell => c.1 < d.1) := ⟨fun c => Nat.lt_irrefl c.1⟩
  have antisymmetric : Std.Antisymm (fun c d : Host.Cell => c.1 < d.1) := ⟨fun _ _ h h' => (Nat.lt_asymm h h').elim⟩
  obtain ⟨rising, -⟩ := (Memory.wf_iff m).mp canonical
  obtain ⟨rising', -⟩ := (Memory.wf_iff m').mp canonical'
  exact congrArg Memory.mk (rising.eq_of_mem_iff rising' sameCells)

/-- The two bytes of a word are the ones it is made of. -/
theorem highByte_wordOfBytes (hi lo : Byte) : highByte (wordOfBytes hi lo) = hi :=
  BitVec.extractLsb'_append_eq_left

theorem lowByte_wordOfBytes (hi lo : Byte) : lowByte (wordOfBytes hi lo) = lo :=
  BitVec.extractLsb'_append_eq_right

/-- Every byte cell of the address space is the high or the low cell of some word (R50). -/
theorem exists_cell_eq {k : Nat} (h : k < Config.cellCount) : ∃ a : Word, k = highCell a ∨ k = lowCell a := by
  have half : k / 2 < 2 ^ 16 := by unfold Config.cellCount at h; omega
  refine ⟨BitVec.ofNat 16 (k / 2), ?_⟩
  rw [highCell, lowCell, BitVec.toNat_ofNat, Nat.mod_eq_of_lt half]
  omega

/-- Memories that read alike in every word read alike in every byte of the address space. -/
theorem readByte_eq_of_readWord_eq {m m' : Memory} (words : ∀ a : Word, m.readWord a = m'.readWord a) {k : Nat}
    (h : k < Config.cellCount) : m.readByte k = m'.readByte k := by
  obtain ⟨a, rfl | rfl⟩ := exists_cell_eq h
  · simpa only [Memory.readWord, highByte_wordOfBytes] using congrArg highByte (words a)
  · simpa only [Memory.readWord, lowByte_wordOfBytes] using congrArg lowByte (words a)

/-- Settles O16: the words fix the bytes of the address space, and these fix a canonical memory's list of cells. -/
theorem canonicalMemoriesEqual : Obligations.CanonicalMemoriesEqual := fun _ _ canonical canonical' words =>
  eq_of_readByte_eq canonical canonical' fun _ => readByte_eq_of_readWord_eq words

/-! ## The instructions that write memory -/

/-- A word write leaves the bytes outside its two cells. -/
theorem readByte_writeWord_of_ne (m : Memory) {a : Word} (v : Word) {k : Nat} (high : k ≠ highCell a)
    (low : k ≠ lowCell a) : (m.writeWord a v).readByte k = m.readByte k := by
  rw [Memory.readByte_writeWord, if_neg high, if_neg low]

/-- Settles O59, by the ways an instruction can act: `memWrite` alone changes memory. -/
theorem onlyStoresWriteMemory : Obligations.OnlyStoresWriteMemory := by
  intro i s t h
  cases exec_effect h with
  | stores ea v eq _ _ _ store =>
    subst eq
    rw [store]
    refine ⟨nofun, ?_⟩
    rintro _ ⟨⟩ k high low
    exact readByte_writeWord_of_ne s.mem v high low
  | writesResult _ _ eq _ _ _ store | jumps eq _ _ store | calls eq _ _ store | reserved eq _ _ _ store =>
    subst eq
    rw [store]
    exact ⟨fun _ => rfl, nofun⟩
  | traps u v eq frame =>
    subst eq
    exact ⟨fun _ => frame.mem, nofun⟩

/-- An instruction with a store address and a word to store completes, and writes that word there (R160 to R163). -/
theorem exec_of_store {i : Instr} {s : State} {ea v : Word} (address : storeAddress i s = some ea)
    (word : storedWord i s = some v) : exec i s = .next (s.memWrite ea v) := by
  cases i with
  | st | sti | str => cases address; cases word; rfl
  | add | addImm | and | andImm | not | br | jmp | jsr | jsrr => cases address
  | ld | ldi | ldr | lea | trap | rti | res => cases address

/-- The word to store is read from a register, which the fetch increment leaves alone. -/
theorem storedWord_advancePc (i : Instr) (s : State) : storedWord i s.advancePc = storedWord i s := by
  cases i <;> rfl

/-- A running machine executes the word it reads at PC, wherever that word came from (R66, R82). -/
theorem step_of_memRead {u : State} {v : Word} (word : u.memRead u.pc = v) (running : u.status = .running) :
    step u = exec (decodeWord v) u.advancePc := by
  rw [step_of_running running, word]

/-- Settles O36: the step answers the state with the word written, and a fetch reads the memory that the store wrote. -/
theorem storedWordIsFetched : Obligations.StoredWordIsFetched := by
  rintro s i ea v running rfl address word
  have stores := exec_of_store (s := s.advancePc) address ((storedWord_advancePc _ s).trans word)
  have written : (s.advancePc.memWrite ea v).memRead ea = v := readWord_writeWord_self _ ea v
  refine ⟨s.advancePc.memWrite ea v, (step_of_running running).trans stores, ?_, ?_⟩
  · rintro u sameWord running' rfl
    exact step_of_memRead (sameWord.trans written) running'
  · rintro rfl
    have twoOn : s.pc + 2 = s.pc + 1 + 1 := (BitVec.add_assoc s.pc 1 1).symm
    rw [step_of_memRead written running, twoOn]
    rfl

end Sys2Proof.Proofs
end

section
/-! Fields of an instruction word: a field placed and read back, and a field read and placed back (30_encoding.md R72,
R73). Decoding after encoding, and encoding after decoding (R75 to R77, R81). -/

namespace Sys2Proof.Proofs

open Sys2Proof.Machine Sys2Proof.Safety

/-! ## A field placed, then read -/

/-- A field is read back from where it was placed. -/
@[simp] theorem extractLsb'_place_self {n lo : Nat} (fits : lo + n ≤ 16) (f : BitVec n) :
    (place lo f).extractLsb' lo n = f := by
  refine BitVec.eq_of_getLsbD_eq fun j hj => ?_
  have inWord : lo + j < 16 := by omega
  rw [BitVec.getLsbD_extractLsb', getLsbD_place]
  simp [hj, inWord]

/-- A field placed wholly below the bits read leaves them 0. -/
@[simp] theorem extractLsb'_place_of_below {m lo lo' : Nat} (n : Nat) (below : lo' + m ≤ lo) (f : BitVec m) :
    (place lo' f).extractLsb' lo n = 0#n := by
  refine BitVec.eq_of_getLsbD_eq fun j _ => ?_
  have beyond : f.getLsbD (lo + j - lo') = false := BitVec.getLsbD_of_ge f _ (by omega)
  simp [getLsbD_place, beyond]

/-- A field placed wholly above the bits read leaves them 0. -/
@[simp] theorem extractLsb'_place_of_above {m n lo lo' : Nat} (above : lo + n ≤ lo') (f : BitVec m) :
    (place lo' f).extractLsb' lo n = 0#n := by
  refine BitVec.eq_of_getLsbD_eq fun j hj => ?_
  have before : ¬ lo' ≤ lo + j := by omega
  simp [getLsbD_place, before]

/-- One bit of a word, read as a field. -/
theorem extractLsb'_one (w : Word) (j : Nat) : w.extractLsb' j 1 = BitVec.ofBool (w.getLsbD j) := by
  refine BitVec.eq_of_getLsbD_eq fun k hk => ?_
  obtain rfl : k = 0 := by omega
  simp

/-- The bits that select a form (R76) are fields of one bit, so the rules of fields apply to them. -/
theorem getLsbD_iff_extractLsb' (w : Word) (j : Nat) : w.getLsbD j = true ↔ w.extractLsb' j 1 = 1#1 := by
  rw [extractLsb'_one]
  cases w.getLsbD j <;> decide

/-! ## Decoding after encoding -/

/-- Every encoding carries the opcode of its form (R71, R75). -/
theorem decodeOpcode_encode (i : Instr) : decodeOpcode (encode i) = instrOpcode i := by
  cases i with
  | add d a b => exact Laws.EncodesOpcode.add d a b
  | addImm d a v => exact Laws.EncodesOpcode.addImm d a v
  | and d a b => exact Laws.EncodesOpcode.and d a b
  | andImm d a v => exact Laws.EncodesOpcode.andImm d a v
  | not d a => exact Laws.EncodesOpcode.not d a
  | br m off => exact Laws.EncodesOpcode.br m off
  | jmp b => exact Laws.EncodesOpcode.jmp b
  | jsr off => exact Laws.EncodesOpcode.jsr off
  | jsrr b => exact Laws.EncodesOpcode.jsrr b
  | ld d off => exact Laws.EncodesOpcode.ld d off
  | ldi d off => exact Laws.EncodesOpcode.ldi d off
  | ldr d b off => exact Laws.EncodesOpcode.ldr d b off
  | lea d off => exact Laws.EncodesOpcode.lea d off
  | st r off => exact Laws.EncodesOpcode.st r off
  | sti r off => exact Laws.EncodesOpcode.sti r off
  | str r b off => exact Laws.EncodesOpcode.str r b off
  | trap u v => exact Laws.EncodesOpcode.trap u v
  | rti u => exact Laws.EncodesOpcode.rti u
  | res u => exact Laws.EncodesOpcode.res u

/-- The decoder undoes the encoder: the opcode selects the form's opcode, bit 5 or bit 11 the form, and each field is
read back from where it was placed. -/
theorem decodeWord_encode (i : Instr) : decodeWord (encode i) = i := by
  rw [decodeWord, decodeOpcode_encode]
  cases i with
  | add | addImm | and | andImm | jsr | jsrr =>
    simp only [instrOpcode, getLsbD_iff_extractLsb']
    simp [encode, BitVec.extractLsb'_or, fieldDR, fieldSR1, fieldSR2, fieldImm5, fieldPCoffset11]
  | br | ld | st | ldi | sti | lea =>
    simp [instrOpcode, encode, BitVec.extractLsb'_or, fieldDR, fieldMask, fieldPCoffset9]
  | ldr | str | not | jmp =>
    simp [instrOpcode, encode, BitVec.extractLsb'_or, fieldDR, fieldSR1, fieldOffset6]
  | trap | rti | res =>
    simp [instrOpcode, encode, BitVec.extractLsb'_or, fieldTrapUnused, fieldTrapvect8, fieldUndecoded]

/-- Settles O4: `decodeWord_encode`, and a word is its two bytes. -/
theorem decodeOfEncode : Obligations.DecodeOfEncode := by
  refine fun i => ⟨decodeWord_encode i, fun rest => ?_⟩
  show Except.ok (decodeWord (wordOfBytes (highByte (encode i)) (lowByte (encode i))), rest) = _
  rw [wordOfBytes_highByte_lowByte, decodeWord_encode]

/-- Settles O9: each word is written out from the encoding of its instruction. -/
theorem writtenWordsDecode : Obligations.WrittenWordsDecode :=
  ⟨decodeWord_encode (.add 0 1 2), decodeWord_encode (.addImm 1 1 0b11110), decodeWord_encode (.br 0b001 2),
    decodeWord_encode (.jsr 5), decodeWord_encode (.ldr 4 5 0b111111), decodeWord_encode (.sti 0 1),
    decodeWord_encode (.trap 0b1111 0x25), decodeWord_encode (.rti 0)⟩

/-! ## A field read, then placed -/

/-- Taking a field out of a word and placing it back keeps the field's bits and clears the others. -/
theorem place_extractLsb' (w : Word) (lo n : Nat) :
    place lo (w.extractLsb' lo n) = w &&& place lo (BitVec.allOnes n) := by
  refine BitVec.eq_of_getLsbD_eq fun j hj => ?_
  rw [BitVec.getLsbD_and, getLsbD_place, getLsbD_place, BitVec.getLsbD_extractLsb', BitVec.getLsbD_allOnes]
  by_cases reached : lo ≤ j
  · simp [reached, hj, Bool.and_comm]
  · simp [reached]

section
variable (w : Word)

@[simp] theorem place_fieldDR : place 9 (fieldDR w) = w &&& 0x0E00 := place_extractLsb' w 9 3
@[simp] theorem place_fieldMask : place 9 (fieldMask w) = w &&& 0x0E00 := place_extractLsb' w 9 3
@[simp] theorem place_fieldSR1 : place 6 (fieldSR1 w) = w &&& 0x01C0 := place_extractLsb' w 6 3
@[simp] theorem place_fieldSR2 : place 0 (fieldSR2 w) = w &&& 0x0007 := place_extractLsb' w 0 3
@[simp] theorem place_fieldImm5 : place 0 (fieldImm5 w) = w &&& 0x001F := place_extractLsb' w 0 5
@[simp] theorem place_fieldOffset6 : place 0 (fieldOffset6 w) = w &&& 0x003F := place_extractLsb' w 0 6
@[simp] theorem place_fieldPCoffset9 : place 0 (fieldPCoffset9 w) = w &&& 0x01FF := place_extractLsb' w 0 9
@[simp] theorem place_fieldPCoffset11 : place 0 (fieldPCoffset11 w) = w &&& 0x07FF := place_extractLsb' w 0 11
@[simp] theorem place_fieldTrapvect8 : place 0 (fieldTrapvect8 w) = w &&& 0x00FF := place_extractLsb' w 0 8
@[simp] theorem place_fieldTrapUnused : place 8 (fieldTrapUnused w) = w &&& 0x0F00 := place_extractLsb' w 8 4
@[simp] theorem place_fieldUndecoded : place 0 (fieldUndecoded w) = w &&& 0x0FFF := place_extractLsb' w 0 12

end

/-- The opcode value that the encoder places is the word's own bits [15:12]. -/
theorem place_opcodeValue {w : Word} {op : Opcode} (h : decodeOpcode w = op) :
    place 12 (opcodeValue op) = w &&& 0xF000 := by
  rw [← (decodeOpcode_eq_iff w op).mp h]
  exact place_extractLsb' w 12 4

/-- The encoder's 1 in a selector bit is the word's own bit, where that is set. -/
theorem place_one_of_set {w : Word} {j : Nat} (set : w.getLsbD j = true) :
    place j 1#1 = w &&& place j (BitVec.allOnes 1) := by
  rw [← place_extractLsb', extractLsb'_one, set]
  rfl

/-- A selector bit that is clear in the word adds nothing to a mask. -/
theorem and_or_place_of_clear {w : Word} {j : Nat} (clear : w.getLsbD j = false) (mask : Word) :
    w &&& (mask ||| place j (BitVec.allOnes 1)) = w &&& mask := by
  rw [BitVec.and_or_distrib_left, ← place_extractLsb', extractLsb'_one, clear]
  simp [place]

/-! ## Encoding after decoding -/

/-- The encoder writes back every field of the word, and the assembler's value elsewhere (R77, R81): each placed field
is the word under the field's mask, and the masks of a form add up to its occupied bits. -/
theorem encode_decodeWord_of_ne_trap {w : Word} (notTrap : decodeOpcode w ≠ .trap) :
    encode (decodeWord w) = (w &&& occupiedBits w) ||| canonicalIgnored w := by
  unfold decodeWord occupiedBits canonicalIgnored
  cases h : decodeOpcode w with
  | trap => exact absurd h notTrap
  | br | ld | st | ldi | sti | lea | ldr | str | jmp | rti | res =>
    simp [encode, place_opcodeValue h, ← BitVec.and_or_distrib_left]
  | not =>
    have ones : place 0 0b111111#6 = 0x003F := rfl
    simp [encode, place_opcodeValue h, ones, ← BitVec.and_or_distrib_left]
  | add | and =>
    cases bit : w.getLsbD 5 with
    | true =>
      have selector : place 5 1#1 = w &&& 0x0020 := place_one_of_set bit
      simp [encode, place_opcodeValue h, selector, ← BitVec.and_or_distrib_left]
    | false =>
      have selector : w &&& 0xFFE7 = w &&& 0xFFC7 := and_or_place_of_clear bit 0xFFC7
      simpa [encode, place_opcodeValue h, ← BitVec.and_or_distrib_left] using selector.symm
  | jsr =>
    cases bit : w.getLsbD 11 with
    | true =>
      have selector : place 11 1#1 = w &&& 0x0800 := place_one_of_set bit
      simp [encode, place_opcodeValue h, selector, ← BitVec.and_or_distrib_left]
    | false =>
      have selector : w &&& 0xF9C0 = w &&& 0xF1C0 := and_or_place_of_clear bit 0xF1C0
      simpa [encode, place_opcodeValue h, ← BitVec.and_or_distrib_left] using selector.symm

/-- A TRAP word is encoded back whole (log 12). -/
theorem encode_decodeWord_of_trap {w : Word} (trap : decodeOpcode w = .trap) : encode (decodeWord w) = w := by
  have whole : w &&& 0xFFFF = w := BitVec.and_allOnes
  simpa [decodeWord, trap, encode, place_opcodeValue trap, ← BitVec.and_or_distrib_left] using whole

/-- The assembler's bits stand where no field does. -/
theorem canonicalIgnored_and_occupiedBits (w : Word) : canonicalIgnored w &&& occupiedBits w = 0#16 := by
  cases h : decodeOpcode w with
  | not => simp [canonicalIgnored, occupiedBits, h]
  | br | add | ld | st | jsr | and | ldr | str | rti | ldi | sti | jmp | res | lea | trap =>
    rw [canonicalIgnored, h]
    exact BitVec.zero_and

/-- Settles O5: outside TRAP the encoding is known whole, and its assembler's part falls away under the mask. -/
theorem encodeOfDecode : Obligations.EncodeOfDecode := by
  refine fun w => ⟨?_, encode_decodeWord_of_ne_trap⟩
  by_cases trap : decodeOpcode w = .trap
  · rw [encode_decodeWord_of_trap trap]
  · rw [encode_decodeWord_of_ne_trap trap, BitVec.and_or_distrib_right, canonicalIgnored_and_occupiedBits,
      BitVec.and_assoc, BitVec.and_self, BitVec.or_zero]

/-! ## The opcode of a decoded word -/

/-- The second level of the decoder keeps to the forms of the opcode (R76). -/
theorem instrOpcode_decodeWord (w : Word) : instrOpcode (decodeWord w) = decodeOpcode w := by
  unfold decodeWord
  cases decodeOpcode w with
  | add | and => cases w.getLsbD 5 <;> rfl
  | jsr => cases w.getLsbD 11 <;> rfl
  | br | ld | st | ldr | str | rti | not | ldi | sti | jmp | res | lea | trap => rfl

theorem opcodeValue_decodeWord (w : Word) : opcodeValue (instrOpcode (decodeWord w)) = fieldOpcode w := by
  rw [instrOpcode_decodeWord, opcodeValue_decodeOpcode]

/-- The opcode stands in the first byte. -/
theorem fieldOpcode_wordOfBytes (hi lo : Byte) : fieldOpcode (wordOfBytes hi lo) = hi.extractLsb' 4 4 :=
  BitVec.extractLsb'_append_eq_of_le (by decide)

/-- Settles O7: two bytes decode as the word they make, whose opcode is `opcodeValue_decodeWord`. -/
theorem opcodeIsTopFourBits : Obligations.OpcodeIsTopFourBits := by
  refine ⟨opcodeValue_decodeWord, fun hi lo rest => ⟨_, rfl, ?_⟩, fun _ => rfl, rfl⟩
  rw [opcodeValue_decodeWord, fieldOpcode_wordOfBytes]

end Sys2Proof.Proofs
end

section
/-! Illegal instructions: what they do, and which words decode to them (30_encoding.md R78, 44_trap.md R190,
45_reserved.md R210, R211). -/

namespace Sys2Proof.Proofs

open Sys2Proof.Machine Sys2Proof.Safety

/-! ## The dispatcher, by whether the vector is defined (R181, R190) -/

theorem serviceOf_of_undefined {v : Byte} (undefined : definedVector v = false) : serviceOf v = none := by
  rw [← Option.not_isSome_iff_eq_none, serviceOf_isSome, undefined]
  decide

theorem execTrap_of_undefined {v : Byte} (undefined : definedVector v = false) (u : BitVec 4) (s : State) :
    execTrap u v s = .next (s.raiseBadVector (encode (.trap u v))) := by
  simp only [execTrap, serviceOf_of_undefined undefined]

/-- A service does not see TRAP's unused bits. -/
theorem execTrap_of_defined {v : Byte} (defined : definedVector v = true) (u u' : BitVec 4) (s : State) :
    execTrap u v s = execTrap u' v s := by
  obtain ⟨service, hv⟩ := Option.isSome_iff_exists.mp ((serviceOf_isSome v).trans defined)
  cases service <;> simp only [execTrap, hv]

/-! ## What an instruction does to the status -/

/-- Every illegal instruction raises a fatal condition, and does nothing else (R78, R222). -/
theorem exec_of_illegal {i : Instr} (illegal : i.wellFormed = false) (s : State) :
    ∃ r, exec i s = .next { s with status := .faulted r } := by
  cases i with
  | rti | res => exact ⟨_, rfl⟩
  | trap u v => exact ⟨_, execTrap_of_undefined illegal u s⟩
  | add | addImm | and | andImm | not | br | jmp | jsr | jsrr => cases illegal
  | ld | ldi | ldr | lea | st | sti | str => cases illegal

/-- What a legal instruction can do to the status: leave it, halt, or record a device's failure. -/
inductive LegalStatus (s t : State) : Prop
  | kept (eq : t.status = s.status)
  | halted (eq : t.status = .halted)
  | ioFailed (r : IORecord) (eq : t.status = .ioFailed r)

theorem LegalStatus.of_grown {s t : State} (h : ConsoleGrown s t) : LegalStatus s t := by
  obtain ⟨-, h⟩ := h
  rw [h]
  exact .kept rfl

theorem LegalStatus.of_failed {v : Byte} {s t : State} (h : OutputFailed v s t) : LegalStatus s t := by
  obtain ⟨-, h⟩ := h
  rw [h]
  exact .ioFailed _ rfl

theorem serviceGetc_status {s t : State} (h : serviceGetc s = .next t) : LegalStatus s t := by
  rcases inputThen_eq_next h with ⟨b, s', answered, hk⟩ | ⟨s', -, rfl⟩
  · obtain ⟨rfl, -⟩ := State.input_eq_char answered
    cases hk
    exact .kept rfl
  · exact .ioFailed _ rfl

theorem serviceOut_status {s t : State} (h : serviceOut s = .next t) : LegalStatus s t := by
  rcases emitThen_eq_next h with ⟨s', written, hk⟩ | ⟨s', -, rfl⟩
  · cases hk
    exact .of_grown (.of_ok written (.refl _))
  · exact .ioFailed _ rfl

theorem serviceIn_status {s t : State} (h : serviceIn s = .next t) : LegalStatus s t := by
  rcases emitAllThen_eq_next _ h with failed | ⟨s1, prompted, -, -, hk⟩
  · exact .of_failed failed
  rw [prompted] at hk
  rcases inputThen_eq_next hk with ⟨b, s2, answered, hk⟩ | ⟨s2, -, rfl⟩
  · obtain ⟨rfl, -⟩ := State.input_eq_char answered
    rcases emitThen_eq_next hk with ⟨s3, echoed, hk⟩ | ⟨s3, -, rfl⟩
    · obtain ⟨rfl, -⟩ := State.emit_eq_ok echoed
      cases hk
      exact .kept rfl
    · exact .ioFailed _ rfl
  · exact .ioFailed _ rfl

theorem execTrap_status {u : BitVec 4} {v : Byte} {s t : State} (defined : definedVector v = true)
    (h : execTrap u v s = .next t) : LegalStatus s t := by
  unfold execTrap at h
  split at h
  case h_1 => exact serviceGetc_status h
  case h_2 => exact serviceOut_status h
  case h_3 => exact (putsLoop_eq_next _ _ _ _ h).elim .of_grown .of_failed
  case h_4 => exact serviceIn_status h
  case h_5 => exact (putspLoop_eq_next _ _ _ _ h).elim .of_grown .of_failed
  case h_6 => cases h; exact .halted rfl
  case h_7 unnamed => rw [← serviceOf_isSome, unnamed] at defined; cases defined

theorem exec_status_of_legal {i : Instr} {s t : State} (legal : i.wellFormed = true) (h : exec i s = .next t) :
    LegalStatus s t := by
  cases i with
  | add | addImm | and | andImm | not | ld | ldi | ldr | lea => cases h; exact .kept rfl
  | st | sti | str | jmp | jsr | jsrr => cases h; exact .kept rfl
  | br m off =>
    have moved := Host.Outcome.next.inj ((execBr_eq m off s).symm.trans h)
    exact .kept (moved ▸ rfl)
  | trap u v => exact execTrap_status legal h
  | rti | res => cases legal

/-- From a running machine, exactly the illegal instructions end in the status Faulted. -/
theorem exec_faulted_iff {i : Instr} {s : State} (running : s.status = .running) :
    (∃ t r, exec i s = .next t ∧ t.status = .faulted r) ↔ i.wellFormed = false := by
  constructor
  · rintro ⟨t, r, h, faulted⟩
    by_contra legal
    cases exec_status_of_legal (Bool.eq_true_of_not_eq_false legal) h with
    | kept eq => simp [faulted, running] at eq
    | halted eq | ioFailed _ eq => simp [faulted] at eq
  · intro illegal
    obtain ⟨r, h⟩ := exec_of_illegal illegal s
    exact ⟨_, r, h, rfl⟩

/-! ## The illegal words -/

theorem definedVector_eq_false_iff (v : Byte) :
    definedVector v = false ↔ ¬ (0x20 ≤ v.toNat ∧ v.toNat ≤ 0x25) :=
  decide_eq_false_iff_not

/-- The illegal words, by the opcode and the vector (R78 (a) to (c)). -/
theorem wellFormed_decodeWord_eq_false_iff (w : Word) :
    (decodeWord w).wellFormed = false ↔ decodeOpcode w = .rti ∨ decodeOpcode w = .res ∨
      (decodeOpcode w = .trap ∧ definedVector (fieldTrapvect8 w) = false) := by
  unfold decodeWord
  cases decodeOpcode w with
  | add | and => cases w.getLsbD 5 <;> simp [Instr.wellFormed]
  | jsr => cases w.getLsbD 11 <;> simp [Instr.wellFormed]
  | br | ld | st | ldr | str | rti | not | ldi | sti | jmp | res | lea | trap => simp [Instr.wellFormed]

/-- Settles O8: `exec_faulted_iff` turns the claim into one about legality, and the opcodes are bits [15:12]. -/
theorem illegalEncodingsExactly : Obligations.IllegalEncodingsExactly := by
  intro w s running
  rw [exec_faulted_iff running, wellFormed_decodeWord_eq_false_iff, definedVector_eq_false_iff]
  simp only [decodeOpcode_eq_iff]
  rfl

end Sys2Proof.Proofs
end

section
/-! The bits that no field occupies have no effect (30_encoding.md R77). -/

namespace Sys2Proof.Proofs

open Sys2Proof.Machine Sys2Proof.Safety

/-! ## Bits that are never ignored -/

/-- The opcode is occupied in every format. -/
theorem opcode_occupied (w : Word) : (occupiedBits w).extractLsb' 12 4 = BitVec.allOnes 4 := by
  cases h : decodeOpcode w with
  | add | and | jsr => simp only [occupiedBits, h]; split <;> decide
  | br | ld | st | ldr | str | rti | not | ldi | sti | jmp | res | lea | trap => simp [occupiedBits, h]

/-- Bit 5 selects the form of ADD and AND. -/
theorem bit5_occupied {w : Word} (h : decodeOpcode w = .add ∨ decodeOpcode w = .and) :
    (occupiedBits w).getLsbD 5 = true := by
  rcases h with h | h
  all_goals simp only [occupiedBits, h]; split <;> decide

/-- Bit 11 selects between JSR and JSRR. -/
theorem bit11_occupied {w : Word} (h : decodeOpcode w = .jsr) : (occupiedBits w).getLsbD 11 = true := by
  simp only [occupiedBits, h]; split <;> decide

theorem trapvect8_occupied {w : Word} (h : decodeOpcode w = .trap) :
    (occupiedBits w).extractLsb' 0 8 = BitVec.allOnes 8 := by
  simp [occupiedBits, h]

/-! ## Two words that agree in the occupied bits of the first -/

section
variable {w w' : Word} (agree : w &&& occupiedBits w = w' &&& occupiedBits w)
include agree

theorem extractLsb'_eq_of_agree {lo n : Nat} (occupied : (occupiedBits w).extractLsb' lo n = BitVec.allOnes n) :
    w'.extractLsb' lo n = w.extractLsb' lo n := by
  have field := congrArg (BitVec.extractLsb' lo n) agree
  rw [BitVec.extractLsb'_and, BitVec.extractLsb'_and, occupied, BitVec.and_allOnes, BitVec.and_allOnes] at field
  exact field.symm

theorem getLsbD_eq_of_agree {j : Nat} (occupied : (occupiedBits w).getLsbD j = true) :
    w'.getLsbD j = w.getLsbD j := by
  have bit := congrArg (BitVec.getLsbD · j) agree
  simpa [occupied] using bit.symm

theorem decodeOpcode_eq_of_agree : decodeOpcode w' = decodeOpcode w := by
  rw [decodeOpcode_eq_iff, opcodeValue_decodeOpcode]
  exact extractLsb'_eq_of_agree agree (opcode_occupied w)

/-- The words have one format, since its selector bits are occupied. -/
theorem occupiedBits_eq_of_agree : occupiedBits w' = occupiedBits w := by
  rw [occupiedBits, occupiedBits, decodeOpcode_eq_of_agree agree]
  cases h : decodeOpcode w with
  | add => rw [getLsbD_eq_of_agree agree (bit5_occupied (.inl h))]
  | and => rw [getLsbD_eq_of_agree agree (bit5_occupied (.inr h))]
  | jsr => rw [getLsbD_eq_of_agree agree (bit11_occupied h)]
  | br | ld | st | ldr | str | rti | not | ldi | sti | jmp | res | lea | trap => rfl

theorem canonicalIgnored_eq_of_agree : canonicalIgnored w' = canonicalIgnored w := by
  rw [canonicalIgnored, canonicalIgnored, decodeOpcode_eq_of_agree agree]

/-- TRAP apart, the words decode alike: their decodings have one encoding, which decodes back to each. -/
theorem decodeWord_eq_of_agree (notTrap : decodeOpcode w ≠ .trap) : decodeWord w' = decodeWord w := by
  have notTrap' : decodeOpcode w' ≠ .trap := by rwa [decodeOpcode_eq_of_agree agree]
  have sameEncoding : encode (decodeWord w') = encode (decodeWord w) := by
    rw [encode_decodeWord_of_ne_trap notTrap', encode_decodeWord_of_ne_trap notTrap,
      occupiedBits_eq_of_agree agree, canonicalIgnored_eq_of_agree agree, agree]
  simpa only [decodeWord_encode] using congrArg decodeWord sameEncoding

end

theorem decodeWord_of_trap {w : Word} (trap : decodeOpcode w = .trap) :
    decodeWord w = .trap (fieldTrapUnused w) (fieldTrapvect8 w) := by
  simp only [decodeWord, trap]

/-- Settles O6: two TRAP words share their vector, and a service does not see the other bits; all other words decode
alike. -/
theorem ignoredBitsHaveNoEffect : Obligations.IgnoredBitsHaveNoEffect := by
  intro w w' s agree
  by_cases trap : decodeOpcode w = .trap
  · have trap' : decodeOpcode w' = .trap := (decodeOpcode_eq_of_agree agree).trans trap
    have sameVector : fieldTrapvect8 w' = fieldTrapvect8 w := extractLsb'_eq_of_agree agree (trapvect8_occupied trap)
    rw [decodeWord_of_trap trap, decodeWord_of_trap trap', sameVector]
    refine ⟨fun legal => ?_, fun illegal => ?_⟩
    · exact execTrap_of_defined (legal.resolve_right (not_not.mpr trap)) _ _ s
    · obtain ⟨r, h⟩ := exec_of_illegal illegal s
      obtain ⟨r', h'⟩ := exec_of_illegal (i := .trap (fieldTrapUnused w') (fieldTrapvect8 w)) illegal s
      exact ⟨r, r', h, h'⟩
  · rw [decodeWord_eq_of_agree agree trap]
    refine ⟨fun _ => rfl, fun illegal => ?_⟩
    obtain ⟨r, h⟩ := exec_of_illegal illegal s
    exact ⟨r, r, h, h⟩

end Sys2Proof.Proofs
end

section
/-! One step and the step port, from the laws of the step (30_encoding.md R82, R83). -/

namespace Sys2Proof.Proofs

open Sys2Proof.Machine Sys2Proof.Safety

/-- Settles O10: the two bytes at PC decode as the word they make, which a running machine executes. -/
theorem stepRunsDecodedInstruction : Obligations.StepRunsDecodedInstruction := by
  intro s running
  refine ⟨fun i rest decoded => ?_, step_of_running running⟩
  cases decoded
  exact step_of_running running

/-- Settles O11: the port's answer is `stepPort_eq_next`, and a stopped machine steps to itself. -/
theorem terminalStatusIsFinal : Obligations.TerminalStatusIsFinal := by
  refine ⟨fun s t h => stepPort_eq_next.mpr ⟨h, rfl⟩, fun s stopped => ?_⟩
  have same := step_of_stopped stopped
  exact ⟨same, stepPort_eq_next.mpr ⟨same, (decide_eq_false stopped).symm⟩⟩

end Sys2Proof.Proofs
end

section
/-! The operate instructions (40_operate.md R100 to R105): which words decode to each, and its result. -/

namespace Sys2Proof.Proofs

open Sys2Proof.Machine Sys2Proof.Safety

/-! ## A format given as a mask and the value of the word under it (R73) -/

section
variable {w mask value : Word} (format : w &&& mask = value)
include format

/-- A field that the mask covers is fixed by the format. -/
theorem extractLsb'_of_format {lo n : Nat} (covered : mask.extractLsb' lo n = BitVec.allOnes n) :
    w.extractLsb' lo n = value.extractLsb' lo n := by
  rw [← format, BitVec.extractLsb'_and, covered, BitVec.and_allOnes]

/-- A bit that the mask covers is fixed by the format. -/
theorem getLsbD_of_format {j : Nat} (covered : mask.getLsbD j = true) : w.getLsbD j = value.getLsbD j := by
  rw [← format, BitVec.getLsbD_and, covered, Bool.and_true]

/-- A mask over bits [15:12] fixes the opcode. -/
theorem decodeOpcode_of_format {op : Opcode} (covered : mask.extractLsb' 12 4 = BitVec.allOnes 4)
    (opcode : fieldOpcode value = opcodeValue op) : decodeOpcode w = op :=
  (decodeOpcode_eq_iff w op).mpr ((extractLsb'_of_format format covered).trans opcode)

end

/-! ## The result of a flag-updating instruction -/

/-- `x[DR] <- v; SetCC(v)` writes DR and COND alone (R31, R105). -/
theorem writesResult_writeResult (s : State) (dr : Reg) (v : Word) :
    WritesResult s dr v (.next (s.writeResult dr v)) := by
  refine ⟨_, rfl, State.writeResult_reg_self s dr v, ?flag, ?regs, rfl, fun _ => rfl, rfl, rfl, rfl⟩
  case flag => simpa using flagOf_condOf v
  case regs => exact fun r other => State.writeResult_reg_of_ne s v (by simpa using other)

/-! ## ADD, AND and NOT -/

/-- Settles O20: opcode 0001 with bit 5 clear is the register form, and the sum of two words is the sum of their values
modulo 65,536. -/
theorem addWritesSum : Obligations.AddWritesSum := by
  refine ⟨fun w format => ?_, fun dr sr1 sr2 s => ?_⟩
  · have opcode : decodeOpcode w = .add := decodeOpcode_of_format format rfl rfl
    have register : w.getLsbD 5 = false := getLsbD_of_format format rfl
    rw [decodeWord, opcode, register]; rfl
  · rw [← BitVec.add_def]
    exact writesResult_writeResult s dr (s.reg sr1 + s.reg sr2)

/-- Settles O21: opcode 0001 with bit 5 set is the immediate form. -/
theorem addImmWritesSum : Obligations.AddImmWritesSum := by
  refine ⟨fun w format => ?_, fun dr sr1 imm5 s => writesResult_writeResult s dr (s.reg sr1 + sext imm5)⟩
  have opcode : decodeOpcode w = .add := decodeOpcode_of_format format rfl rfl
  have immediate : w.getLsbD 5 = true := getLsbD_of_format format rfl
  rw [decodeWord, opcode, immediate]; rfl

/-- Settles O22: opcode 0101 with bit 5 clear is the register form. -/
theorem andWritesConjunction : Obligations.AndWritesConjunction := by
  refine ⟨fun w format => ?_, fun dr sr1 sr2 s => writesResult_writeResult s dr (s.reg sr1 &&& s.reg sr2)⟩
  have opcode : decodeOpcode w = .and := decodeOpcode_of_format format rfl rfl
  have register : w.getLsbD 5 = false := getLsbD_of_format format rfl
  rw [decodeWord, opcode, register]; rfl

/-- Settles O23: opcode 0101 with bit 5 set is the immediate form. -/
theorem andImmWritesConjunction : Obligations.AndImmWritesConjunction := by
  refine ⟨fun w format => ?_, fun dr sr1 imm5 s => writesResult_writeResult s dr (s.reg sr1 &&& sext imm5)⟩
  have opcode : decodeOpcode w = .and := decodeOpcode_of_format format rfl rfl
  have immediate : w.getLsbD 5 = true := getLsbD_of_format format rfl
  rw [decodeWord, opcode, immediate]; rfl

/-- Settles O24: opcode 1001 is NOT, whatever bits [5:0] hold. -/
theorem notWritesComplement : Obligations.NotWritesComplement := by
  refine ⟨fun w format => ?_, fun dr sr s => writesResult_writeResult s dr (~~~ s.reg sr)⟩
  have opcode : decodeOpcode w = .not := decodeOpcode_of_format format rfl rfl
  rw [decodeWord, opcode]; rfl

end Sys2Proof.Proofs
end

section
/-! The control transfers (41_control.md R120 to R125): which words decode to each, and where it goes. -/

namespace Sys2Proof.Proofs

open Sys2Proof.Machine Sys2Proof.Safety

/-! ## The two ways to transfer -/

/-- A transfer without a link writes PC alone (R120, R121). -/
theorem transfersTo_setPc (s : State) (target : Word) : TransfersTo s target none (.next (s.setPc target)) :=
  ⟨_, rfl, rfl, nofun, keepsRegsBut_of_regs rfl [], rfl, fun _ => rfl, rfl, rfl, rfl⟩

/-- A call writes R7 and PC alone, R7 with the return address a + 1 (R122, R123, R125). -/
theorem transfersTo_link_setPc (s : State) (target : Word) :
    TransfersTo s target (some s.pc) (.next (s.link.setPc target)) := by
  refine ⟨_, rfl, rfl, ?link, ?regs, rfl, fun _ => rfl, rfl, rfl, rfl⟩
  case link =>
    rintro v ⟨⟩
    exact State.setReg_reg_self s linkReg s.pc
  case regs => exact fun r other => State.setReg_reg_of_ne s s.pc (List.ne_of_not_mem_cons other)

/-! ## BR, JMP, JSR and JSRR -/

/-- A flag is one bit of COND, so its conjunction with a mask is the mask's bit for that flag (R27, R120). -/
theorem mask_and_bits_eq_zero_iff (mask : BitVec 3) (c : Cond) :
    mask &&& c.bits = 0 ↔
      ¬ ((mask.getLsbD 2 ∧ c = .n) ∨ (mask.getLsbD 1 ∧ c = .z) ∨ (mask.getLsbD 0 ∧ c = .p)) := by
  cases c with
  | n | z | p => revert mask; decide

/-- Settles O25: opcode 0000 is BR, which goes by the table of R24; the table's test reads the mask bit of the flag. -/
theorem branchGoesByMask : Obligations.BranchGoesByMask := by
  refine ⟨fun w format => ?_, fun mask off s => ?_⟩
  · have opcode : decodeOpcode w = .br := decodeOpcode_of_format format rfl rfl
    rw [decodeWord, opcode]; rfl
  · have runs : exec (.br mask off) s = .next (s.setPc (pcAfter (.br mask off) s)) := execBr_eq mask off s
    have goes := transfersTo_setPc s (pcAfter (.br mask off) s)
    rw [runs]
    simpa only [pcAfter, mask_and_bits_eq_zero_iff, ite_not] using goes

/-- Settles O26: opcode 1100 is JMP, whatever bits [11:9] and [5:0] hold. -/
theorem jmpGoesToBase : Obligations.JmpGoesToBase := by
  refine ⟨fun w format => ?_, fun baseR s => transfersTo_setPc s (s.reg baseR)⟩
  have opcode : decodeOpcode w = .jmp := decodeOpcode_of_format format rfl rfl
  rw [decodeWord, opcode]; rfl

/-- Settles O27: opcode 0100 with bit 11 set is JSR, whose target does not depend on the link. -/
theorem jsrLinksAndGoes : Obligations.JsrLinksAndGoes := by
  refine ⟨fun w format => ?_, fun off s => transfersTo_link_setPc s (s.pc + sext off)⟩
  have opcode : decodeOpcode w = .jsr := decodeOpcode_of_format format rfl rfl
  have relative : w.getLsbD 11 = true := getLsbD_of_format format rfl
  rw [decodeWord, opcode, relative]; rfl

/-- Settles O28: opcode 0100 with bit 11 clear is JSRR, and `link_reg` tells its base after the link. -/
theorem jsrrLinksThenReadsBase : Obligations.JsrrLinksThenReadsBase := by
  refine ⟨fun w format => ?_, fun baseR s => ?_⟩
  · have opcode : decodeOpcode w = .jsr := decodeOpcode_of_format format rfl rfl
    have register : w.getLsbD 11 = false := getLsbD_of_format format rfl
    rw [decodeWord, opcode, register]; rfl
  · have base : s.link.reg baseR = if baseR = 7 then s.pc else s.reg baseR := link_reg s baseR
    rw [← base]
    exact transfersTo_link_setPc s (s.link.reg baseR)

end Sys2Proof.Proofs
end

section
/-! The loads and LEA (42_load.md R140 to R144): the three addressing modes, which words decode to each instruction, and
its result. -/

namespace Sys2Proof.Proofs

open Sys2Proof.Machine Sys2Proof.Safety

/-! ## Effective addresses -/

/-- A base plus a sign-extended offset is the sum of their values modulo 65,536, the offset's taken signed (R53). -/
theorem toNat_add_sext {n : Nat} (hn : n ≤ 16) (base : Word) (off : BitVec n) :
    ((base + sext off).toNat : Int) = ((base.toNat : Int) + off.toInt) % 65536 := by
  have signed : off.toInt = (sext off).toInt := (toInt_sext hn off).symm
  rw [signed, BitVec.toInt_eq_toNat_cond, BitVec.toNat_add]
  split <;> omega

/-- Settles O18: the first two modes are `toNat_add_sext`, and a word is known by its value, so the indirect mode reads
at the one word that the PC-relative sum names. -/
theorem addressesWrap : Obligations.AddressesWrap := by
  intro s
  have pcRelative (off : BitVec 9) : ((s.eaPcRel off).toNat : Int) = ((s.pc.toNat : Int) + off.toInt) % 65536 :=
    toNat_add_sext (by decide) s.pc off
  refine ⟨pcRelative, fun b off => toNat_add_sext (by decide) (s.reg b) off, fun off a sum => ?_⟩
  have pointer : a = s.eaPcRel off := BitVec.eq_of_toNat_eq (Int.ofNat_inj.mp (sum.trans (pcRelative off).symm))
  rw [pointer, State.eaIndirect]

/-! ## LD, LDI, LDR and LEA -/

/-- Settles O29: opcode 0010 is LD, which reads at the PC-relative address. -/
theorem ldReadsPcRelative : Obligations.LdReadsPcRelative := by
  refine ⟨fun w format => ?_, fun dr off s => writesResult_writeResult s dr (s.memRead (s.eaPcRel off))⟩
  have opcode : decodeOpcode w = .ld := decodeOpcode_of_format format rfl rfl
  rw [decodeWord, opcode]; rfl

/-- Settles O30: opcode 1010 is LDI, which reads at the word that the PC-relative address holds. -/
theorem ldiReadsThroughPointer : Obligations.LdiReadsThroughPointer := by
  refine ⟨fun w format => ?_, fun dr off s => writesResult_writeResult s dr (s.memRead (s.eaIndirect off))⟩
  have opcode : decodeOpcode w = .ldi := decodeOpcode_of_format format rfl rfl
  rw [decodeWord, opcode]; rfl

/-- Settles O31: opcode 0110 is LDR. Its address is computed from the state before the write, so DR may be BaseR. -/
theorem ldrReadsBasePlusOffset : Obligations.LdrReadsBasePlusOffset := by
  refine ⟨fun w format => ?_, fun dr baseR off s => writesResult_writeResult s dr (s.memRead (s.eaBase baseR off))⟩
  have opcode : decodeOpcode w = .ldr := decodeOpcode_of_format format rfl rfl
  rw [decodeWord, opcode]; rfl

/-- Settles O32: opcode 1110 is LEA, which writes the PC-relative address itself. -/
theorem leaWritesAddress : Obligations.LeaWritesAddress := by
  refine ⟨fun w format => ?_, fun dr off s => writesResult_writeResult s dr (s.eaPcRel off)⟩
  have opcode : decodeOpcode w = .lea := decodeOpcode_of_format format rfl rfl
  rw [decodeWord, opcode]; rfl

end Sys2Proof.Proofs
end

section
/-! The stores (43_store.md R160 to R162): which words decode to each, and what it leaves in memory. -/

namespace Sys2Proof.Proofs

open Sys2Proof.Machine Sys2Proof.Safety

/-- A word write leaves every other word, every byte outside its two cells, and all but memory (R52, R54). -/
theorem storesWord_memWrite (s : State) (ea v : Word) : StoresWord s ea v (.next (s.memWrite ea v)) := by
  refine ⟨_, rfl, readWord_writeWord_self s.mem ea v, ?words, ?bytes, keepsRegsBut_of_regs rfl [], rfl, rfl,
    rfl, rfl, rfl⟩
  case words => exact fun _ other => readWord_writeWord_of_ne s.mem v other
  case bytes => exact fun _ high low => readByte_writeWord_of_ne s.mem v high low

/-- Settles O33: opcode 0011 is ST, which writes SR at the PC-relative address. -/
theorem stStoresPcRelative : Obligations.StStoresPcRelative := by
  refine ⟨fun w format => ?_, fun sr off s => ⟨storesWord_memWrite s (s.eaPcRel off) (s.reg sr), rfl⟩⟩
  have opcode : decodeOpcode w = .st := decodeOpcode_of_format format rfl rfl
  rw [decodeWord, opcode]; rfl

/-- Settles O34: opcode 1011 is STI. Its pointer is read from the memory before the write (R63), so the store may
overwrite it. -/
theorem stiStoresThroughPointer : Obligations.StiStoresThroughPointer := by
  refine ⟨fun w format => ?_, fun sr off s => ⟨storesWord_memWrite s (s.eaIndirect off) (s.reg sr), rfl⟩⟩
  have opcode : decodeOpcode w = .sti := decodeOpcode_of_format format rfl rfl
  rw [decodeWord, opcode]; rfl

/-- Settles O35: opcode 0111 is STR, which writes SR at the base register plus the offset; SR may be BaseR. -/
theorem strStoresBasePlusOffset : Obligations.StrStoresBasePlusOffset := by
  refine ⟨fun w format => ?_, fun sr baseR off s => ⟨storesWord_memWrite s (s.eaBase baseR off) (s.reg sr), rfl⟩⟩
  have opcode : decodeOpcode w = .str := decodeOpcode_of_format format rfl rfl
  rw [decodeWord, opcode]; rfl

end Sys2Proof.Proofs
end

section
/-! The trap dispatcher and HALT (44_trap.md R180, R181, R189 to R191). -/

namespace Sys2Proof.Proofs

open Sys2Proof.Machine Sys2Proof.Safety

/-! ## The table of vectors (R181) -/

section
variable (u : BitVec 4) (s : State)

theorem exec_trap_getc : exec (.trap u 0x20) s = serviceGetc s := rfl
theorem exec_trap_out : exec (.trap u 0x21) s = serviceOut s := rfl
theorem exec_trap_puts : exec (.trap u 0x22) s = servicePuts s := rfl
theorem exec_trap_in : exec (.trap u 0x23) s = serviceIn s := rfl
theorem exec_trap_putsp : exec (.trap u 0x24) s = servicePutsp s := rfl
theorem exec_trap_halt : exec (.trap u 0x25) s = serviceHalt s := rfl

end

/-- Settles O37: opcode 1111 is TRAP, whatever the other bits hold, and the six vectors name the six services. -/
theorem trapDispatchTable : Obligations.TrapDispatchTable := by
  refine ⟨fun w format => ?_, fun u s => ⟨exec_trap_getc u s, exec_trap_out u s, exec_trap_puts u s,
    exec_trap_in u s, exec_trap_putsp u s, exec_trap_halt u s⟩⟩
  exact decodeWord_of_trap (decodeOpcode_of_format format rfl rfl)

/-- Settles O51: every TRAP keeps to the frame of its vector. -/
theorem trapWritesNothingElse : Obligations.TrapWritesNothingElse := by
  intro u v s t h
  have frame : TrapFrame v s t := execTrap_frame h
  exact ⟨frame.regs, frame.cond, frame.pc, fun k => congrArg (·.readByte k) frame.mem, frame.inPrompt⟩

/-! ## HALT (R189) -/

/-- Settles O49: the mask of the word covers the opcode and the vector, which is that of HALT. -/
theorem haltStops : Obligations.HaltStops := by
  refine ⟨exec_trap_halt, fun s running format => stepPort_eq_next.mpr ⟨?_, rfl⟩⟩
  have trap : decodeOpcode (s.memRead s.pc) = .trap := decodeOpcode_of_format format rfl rfl
  have vector : fieldTrapvect8 (s.memRead s.pc) = 0x25 := extractLsb'_of_format format rfl
  rw [step_of_running running, decodeWord_of_trap trap, vector, exec_trap_halt]
  rfl

/-! ## Undefined vectors (R190) -/

/-- The vectors outside 0x20 to 0x25 are the undefined ones. -/
theorem definedVector_eq_false {v : Byte} (outside : v.toNat < 0x20 ∨ 0x25 < v.toNat) : definedVector v = false :=
  (definedVector_eq_false_iff v).mpr (by omega)

/-- The fatal condition of a TRAP word, with its record written out (R221). -/
theorem raiseBadVector_of_trap {w : Word} (trap : decodeOpcode w = .trap) (s : State) :
    s.raiseBadVector w =
      { s with status := .faulted ⟨.unrecognizedTrapVector, s.pc - 1, w, 15, some (w.extractLsb' 0 8)⟩ } := by
  have opcode : fieldOpcode w = 15 := (decodeOpcode_eq_iff w .trap).mp trap
  rw [State.raiseBadVector, State.faultRecord, opcode]
  rfl

section
variable (u : BitVec 4) (v : Byte)

/-- The three fields of a TRAP word laid side by side (R73), each read back. -/
theorem fieldOpcode_trapWord : fieldOpcode (0b1111#4 ++ u ++ v) = 0b1111#4 :=
  (BitVec.extractLsb'_append_eq_of_le (by decide)).trans BitVec.extractLsb'_append_eq_left
theorem fieldTrapUnused_trapWord : fieldTrapUnused (0b1111#4 ++ u ++ v) = u :=
  (BitVec.extractLsb'_append_eq_of_le (by decide)).trans BitVec.extractLsb'_append_eq_right
theorem fieldTrapvect8_trapWord : fieldTrapvect8 (0b1111#4 ++ u ++ v) = v := BitVec.extractLsb'_append_eq_right

theorem decodeOpcode_trapWord : decodeOpcode (0b1111#4 ++ u ++ v) = .trap :=
  (decodeOpcode_eq_iff _ _).mpr (fieldOpcode_trapWord u v)

/-- The encoder lays the fields of TRAP side by side: it gives back the word they were read from. -/
theorem encode_trap : encode (.trap u v) = 0b1111#4 ++ u ++ v := by
  have trap := decodeOpcode_trapWord u v
  have decoded := decodeWord_of_trap trap
  rw [fieldTrapUnused_trapWord, fieldTrapvect8_trapWord] at decoded
  rw [← decoded, encode_decodeWord_of_trap trap]

end

/-- Settles O50: an undefined vector raises the fatal condition with the TRAP word itself on record. -/
theorem badVectorIsFatal : Obligations.BadVectorIsFatal := by
  refine ⟨rfl, fun u v s outside => ?handler, fun s w running word format outside => ?step⟩
  case handler =>
    have runs : exec (.trap u v) s = .next (s.raiseBadVector (encode (.trap u v))) :=
      execTrap_of_undefined (definedVector_eq_false outside) u s
    have vector : (0b1111#4 ++ u ++ v).extractLsb' 0 8 = v := fieldTrapvect8_trapWord u v
    rw [runs, encode_trap, raiseBadVector_of_trap (decodeOpcode_trapWord u v), vector]
  case step =>
    have trap : decodeOpcode w = .trap := decodeOpcode_of_format format rfl rfl
    have runs : exec (decodeWord w) s.advancePc = .next (s.advancePc.raiseBadVector (encode (decodeWord w))) := by
      rw [decodeWord_of_trap trap]
      exact execTrap_of_undefined (definedVector_eq_false outside) _ _
    have address : s.advancePc.pc - 1 = s.pc := BitVec.add_sub_cancel s.pc 1
    rw [step_of_running running, word, runs, encode_decodeWord_of_trap trap, raiseBadVector_of_trap trap, address]
    rfl

end Sys2Proof.Proofs
end

section
/-! The console devices, by the answers still to come (44_trap.md R182, R183, R192), and GETC (R184), which makes one
call of the input device. -/

namespace Sys2Proof.Proofs

open Sys2Proof.Machine Sys2Proof.Safety

/-! ## What the three hypotheses on the output device say of one call -/

section
variable {c : Console} {n : Nat}

theorem acceptsCalls_mono {m : Nat} (h : AcceptsCalls c n) (le : m ≤ n) : AcceptsCalls c m := by
  obtain ⟨oks, enough⟩ := h
  exact ⟨fun a ha => oks a (List.take_subset_take_left _ le ha), enough.imp_left le.trans⟩

/-- The last of the calls that the device accepts is answered by a listed Ok, or after the list by a device that then
answers Ok for ever. -/
theorem answer_of_acceptsCalls (h : AcceptsCalls c (n + 1)) :
    c.outputs[n]? = some .ok ∨ c.outputs.length ≤ n ∧ c.outputRest = .ok := by
  obtain ⟨oks, enough⟩ := h
  by_cases listed : n < c.outputs.length
  · have among : c.outputs[n] ∈ c.outputs.take (n + 1) :=
      List.mem_take_iff_getElem.mpr ⟨n, by omega, rfl⟩
    exact .inl (by rw [List.getElem?_eq_getElem listed, oks _ among])
  · exact .inr ⟨by omega, enough.resolve_left (by omega)⟩

/-- A device that fails at call `n` has listed answers for it and for the calls before. -/
theorem lt_length_of_failsAfter (h : FailsAfter c n) : n < c.outputs.length :=
  (List.getElem?_eq_some_iff.mp h.2).1

theorem acceptsCalls_of_failsAfter (h : FailsAfter c n) : AcceptsCalls c n :=
  ⟨h.1, .inl (lt_length_of_failsAfter h).le⟩

theorem length_of_silentAfter (h : SilentAfter c n) : c.outputs.length = n := h.2.1

theorem acceptsCalls_of_silentAfter (h : SilentAfter c n) : AcceptsCalls c n := by
  obtain ⟨oks, length, -⟩ := h
  exact ⟨fun a ha => oks a (List.mem_of_mem_take ha), .inl length.ge⟩

end

/-! ## One call of the output device, after it accepted `codes` (R183) -/

section
variable {c : Console} {codes : List Byte} (s : State) (b : Byte)

/-- An accepted call writes one code more. -/
theorem emit_of_accepts (h : AcceptsCalls c (codes.length + 1)) :
    ({ s with console := wrote c codes } : State).emit b = .ok { s with console := wrote c (codes ++ [b]) } := by
  rcases answer_of_acceptsCalls h with listed | ⟨used, rest⟩
  · obtain ⟨lt, ok⟩ := List.getElem?_eq_some_iff.mp listed
    simp [State.emit, wrote, List.drop_eq_getElem_cons lt, ok]
  · have used' : c.outputs.length ≤ codes.length + 1 := by omega
    simp [State.emit, wrote, List.drop_eq_nil_of_le used, List.drop_eq_nil_of_le used', rest]

/-- A failing call writes nothing, and uses up its answer. -/
theorem emit_of_fails (h : FailsAfter c codes.length) :
    ({ s with console := wrote c codes } : State).emit b = .fail { s with console := wroteThenFailed c codes } := by
  obtain ⟨lt, fail⟩ := List.getElem?_eq_some_iff.mp h.2
  simp [State.emit, wrote, wroteThenFailed, List.drop_eq_getElem_cons lt, fail]

/-- A silent device does not answer the call after its listed answers. -/
theorem emit_of_silent (h : SilentAfter c codes.length) :
    ({ s with console := wrote c codes } : State).emit b = .noAnswer := by
  obtain ⟨-, length, silent⟩ := h
  exact State.emit_eq_noAnswer.mpr ⟨List.drop_eq_nil_of_le length.le, silent⟩

variable (v : Byte) (k : State → Out)

theorem emitThen_of_accepts (h : AcceptsCalls c (codes.length + 1)) :
    emitThen v b { s with console := wrote c codes } k = k { s with console := wrote c (codes ++ [b]) } := by
  simp only [emitThen, emit_of_accepts s b h]

theorem emitThen_of_fails (h : FailsAfter c codes.length) :
    emitThen v b { s with console := wrote c codes } k =
      .next { s with console := wroteThenFailed c codes, status := .ioFailed (ioRecord s v .output) } := by
  simp only [emitThen, emit_of_fails s b h]
  rfl

theorem emitThen_of_silent (h : SilentAfter c codes.length) :
    emitThen v b { s with console := wrote c codes } k = .fault (.outputNotAnswered (c.written ++ codes)) := by
  simp only [emitThen, emit_of_silent s b h]
  rfl

end

/-- Before the first call nothing is written. -/
theorem wrote_nil (c : Console) : wrote c [] = c := by simp [wrote]

/-! ## One call of the input device (R182) -/

section
variable {s : State} {rest : List InputAnswer} (v : Byte) (k : Byte → State → Out)

theorem inputThen_of_char {b : Byte} (h : s.console.inputs = .char b :: rest) :
    inputThen v s k = k b { s with console := { s.console with inputs := rest } } := by
  simp only [inputThen, State.input, h]

theorem inputThen_of_fail (h : s.console.inputs = .fail :: rest) :
    inputThen v s k = .next { s with console := { s.console with inputs := rest }
                                     status := .ioFailed (ioRecord s v .input) } := by
  simp only [inputThen, State.input, h]
  rfl

theorem inputThen_of_unanswered (h : s.console.inputs = []) :
    inputThen v s k = .fault (.inputNotAnswered s.console.written) := by
  simp only [inputThen, State.input_eq_noAnswer.mpr h]

end

/-! ## GETC -/

/-- A service that leaves the console at `c` and then writes R0 writes nothing else (R191). -/
theorem writesR0_setReg (s : State) (c : Console) (w : Word) :
    WritesR0 s w c (.next (({ s with console := c } : State).setReg trapReg w)) :=
  ⟨_, rfl, State.setReg_reg_self _ trapReg w,
    fun _ other => State.setReg_reg_of_ne _ w (List.ne_of_not_mem_cons other),
    rfl, rfl, fun _ => rfl, rfl, rfl, rfl⟩

/-- Settles O38, by the two answers of the input device. -/
theorem getcStoresCode : Obligations.GetcStoresCode := by
  intro u s
  rw [exec_trap_getc, serviceGetc]
  refine ⟨fun b rest answered => ?char, fun rest failed => inputThen_of_fail _ _ failed⟩
  case char =>
    rw [inputThen_of_char _ _ answered]
    exact writesR0_setReg s _ (zext b)

end Sys2Proof.Proofs
end

section
/-! A service that writes codes one after the other: OUT, PUTS, PUTSP and the prompt of IN (44_trap.md R185 to R188),
each for as long as the output device accepts, and up to its first call that fails or is not answered. -/

namespace Sys2Proof.Proofs

open Sys2Proof.Machine Sys2Proof.Safety

/-! ## A sequence of calls -/

/-- The service of `v`, begun in the state `s`, writes the codes `code 0` to `code (n - 1)` in order. What it still does
after `j` of them is `rest j`, which is run on a state that differs from `s` in the console alone. -/
def WritesInOrder (v : Byte) (s : State) (code : Nat → Byte) (n : Nat) (rest : Nat → State → Out) : Prop :=
  ∀ j < n, ∀ c : Console,
    rest j { s with console := c } = emitThen v (code j) { s with console := c } (rest (j + 1))

section
variable {v : Byte} {s : State} {code : Nat → Byte} {n : Nat} {rest : Nat → State → Out}

/-- The first `n` codes. -/
def firstCodes (code : Nat → Byte) (n : Nat) : List Byte := (List.range n).map code

@[simp] theorem length_firstCodes : (firstCodes code n).length = n := by simp [firstCodes]

theorem firstCodes_zero : firstCodes code 0 = [] := rfl

theorem firstCodes_succ : firstCodes code (n + 1) = firstCodes code n ++ [code n] := by
  simp [firstCodes, List.range_succ]

theorem WritesInOrder.mono {m : Nat} (h : WritesInOrder v s code n rest) (le : m ≤ n) :
    WritesInOrder v s code m rest := fun j lt => h j (lt.trans_le le)

/-- A device that accepts the `n` codes has them written, and the service goes on. -/
theorem WritesInOrder.of_accepts (h : WritesInOrder v s code n rest) (accepts : AcceptsCalls s.console n) :
    rest 0 s = rest n { s with console := wrote s.console (firstCodes code n) } := by
  induction n with
  | zero => rw [firstCodes_zero, wrote_nil]
  | succ n ih =>
    have next := emitThen_of_accepts (codes := firstCodes code n) s (code n) v (rest (n + 1))
      (by rwa [length_firstCodes])
    rw [ih (h.mono n.le_succ) (acceptsCalls_mono accepts n.le_succ), h n n.lt_succ_self, next, firstCodes_succ]

/-- A device that fails at code `n` ends the service there, with the codes before it written (R223). -/
theorem WritesInOrder.of_fails (h : WritesInOrder v s code (n + 1) rest) (fails : FailsAfter s.console n) :
    rest 0 s = .next { s with console := wroteThenFailed s.console (firstCodes code n)
                              status := .ioFailed (ioRecord s v .output) } := by
  rw [(h.mono n.le_succ).of_accepts (acceptsCalls_of_failsAfter fails), h n n.lt_succ_self]
  exact emitThen_of_fails s _ v _ (by rwa [length_firstCodes])

/-- A device that never answers the call for code `n` keeps the service from completing (R192). -/
theorem WritesInOrder.of_silent (h : WritesInOrder v s code (n + 1) rest) (silent : SilentAfter s.console n) :
    rest 0 s = .fault (.outputNotAnswered (s.console.written ++ firstCodes code n)) := by
  rw [(h.mono n.le_succ).of_accepts (acceptsCalls_of_silentAfter silent), h n n.lt_succ_self]
  exact emitThen_of_silent s _ v _ (by rwa [length_firstCodes])

/-- The call that is not accepted is listed, or comes right after the list; the service need only be known to write its
codes in order up to there. -/
theorem stops_at_call (h : n ≤ s.console.outputs.length → WritesInOrder v s code (n + 1) rest) :
    (FailsAfter s.console n →
      rest 0 s = .next { s with console := wroteThenFailed s.console (firstCodes code n)
                                status := .ioFailed (ioRecord s v .output) }) ∧
    (SilentAfter s.console n →
      rest 0 s = .fault (.outputNotAnswered (s.console.written ++ firstCodes code n))) :=
  ⟨fun fails => (h (lt_length_of_failsAfter fails).le).of_fails fails,
    fun silent => (h (length_of_silentAfter silent).ge).of_silent silent⟩

end

/-! ## OUT (R185) -/

/-- What OUT still does after `j` codes: it is a sequence of one call. -/
def outRest : Nat → State → Out
  | 0 => serviceOut
  | _ + 1 => .next

theorem exec_out_eq_outRest (u : BitVec 4) (s : State) : exec (.trap u 0x21) s = outRest 0 s := exec_trap_out u s

theorem outRest_writesInOrder (s : State) : WritesInOrder 0x21 s (fun _ => lowByte (s.reg 0)) 1 outRest := by
  intro j lt c
  obtain rfl : j = 0 := by omega
  rfl

/-- Settles O40, by the two answers of the output device to the one call. -/
theorem outWritesLowByte : Obligations.OutWritesLowByte := by
  intro u s
  rw [exec_out_eq_outRest]
  exact ⟨(outRest_writesInOrder s).of_accepts, (outRest_writesInOrder s).of_fails⟩

/-! ## The words of a string (R186, R188) -/

theorem stringAddress_zero (s : State) : stringAddress s 0 = s.reg trapReg := BitVec.add_zero _

theorem stringAddress_succ (s : State) (k : Nat) : stringAddress s (k + 1) = stringAddress s k + 1 := by
  rw [stringAddress, stringAddress, BitVec.ofNat_add, BitVec.add_assoc]
  rfl

/-- The address wraps, so 65,536 words further on the same word is read. -/
theorem stringWord_add_65536 (s : State) (k : Nat) : stringWord s (k + 65536) = stringWord s k := by
  have wraps : BitVec.ofNat 16 (k + 65536) = BitVec.ofNat 16 k := BitVec.eq_of_toNat_eq (by simp)
  rw [stringWord, stringAddress, wraps, stringWord, stringAddress]

/-- The first zero value of a sequence that repeats itself stands within the first period. -/
theorem first_zero_lt_period {w : Nat} {f : Nat → BitVec w} {period n : Nat} (repeats : ∀ k, f (k + period) = f k)
    (positive : 0 < period) (codes : ∀ k < n, f k ≠ 0) (terminator : f n = 0) : n < period := by
  by_contra beyond
  obtain ⟨k, rfl⟩ := Nat.exists_eq_add_of_le' (Nat.le_of_not_lt beyond)
  exact codes k (by omega) ((repeats k).symm.trans terminator)

/-! ## PUTS (R186) -/

/-- What PUTS, begun in `s`, still does after `k` words. -/
def putsRest (s : State) (k : Nat) : State → Out := putsLoop (stringFuel s - k) (stringAddress s k)

theorem exec_puts_eq_putsRest (u : BitVec 4) (s : State) : exec (.trap u 0x22) s = putsRest s 0 s := by
  rw [exec_trap_puts, servicePuts, putsRest, stringAddress_zero, Nat.sub_zero]

/-- While the words are not zero, and the fuel lasts, PUTS writes their low bytes. -/
theorem putsRest_writesInOrder {s : State} {n : Nat} (codes : ∀ k < n, stringWord s k ≠ 0) (fuel : n ≤ stringFuel s) :
    WritesInOrder 0x22 s (fun k => lowByte (stringWord s k)) n (putsRest s) := by
  intro k lt c
  have more : stringFuel s - k = stringFuel s - (k + 1) + 1 := by omega
  rw [putsRest, more, putsRest, stringAddress_succ]
  exact putsLoop_of_code (codes k lt)

/-- Settles O41: a terminator stands within 65,536 words, so the fuel reaches it. -/
theorem putsWritesString : Obligations.PutsWritesString := by
  intro u s n codes terminator accepts
  have near : n < 65536 := first_zero_lt_period (stringWord_add_65536 s) (by decide) codes terminator
  have fuel : stringFuel s - n = stringFuel s - (n + 1) + 1 := by rw [stringFuel]; omega
  have writes := putsRest_writesInOrder codes (by rw [stringFuel]; omega)
  rw [exec_puts_eq_putsRest, writes.of_accepts accepts, putsRest, fuel]
  exact putsLoop_of_terminator terminator

/-- Settles O42: the fuel counts the listed answers, so it reaches the call that is not accepted. -/
theorem putsStopsAtFailure : Obligations.PutsStopsAtFailure := by
  intro u s n codes
  have codes' : ∀ k < n + 1, stringWord s k ≠ 0 := fun k lt => codes k (Nat.le_of_lt_succ lt)
  rw [exec_puts_eq_putsRest]
  exact stops_at_call fun listed => putsRest_writesInOrder codes' (by rw [stringFuel]; omega)

/-! ## PUTSP (R188) -/

/-- What PUTSP does with the word `w` at the address `i` once it has written the low byte. -/
def putspHigh (fuel : Nat) (i w : Word) (s : State) : Out :=
  if highByte w = 0 then .next s else emitThen 0x24 (highByte w) s (putspLoop fuel (i + 1))

theorem putspLoop_of_low {fuel : Nat} {i : Word} {s : State} (low : lowByte (s.memRead i) ≠ 0) :
    putspLoop (fuel + 1) i s = emitThen 0x24 (lowByte (s.memRead i)) s (putspHigh fuel i (s.memRead i)) :=
  if_neg low

/-- What PUTSP, begun in `s`, still does after `j` bytes. -/
def putspRest (s : State) (j : Nat) : State → Out :=
  if j % 2 = 0 then putspLoop (stringFuel s - j / 2) (stringAddress s (j / 2))
  else putspHigh (stringFuel s - (j / 2 + 1)) (stringAddress s (j / 2)) (stringWord s (j / 2))

section
variable (s : State) (k : Nat)

theorem putspRest_even : putspRest s (2 * k) = putspLoop (stringFuel s - k) (stringAddress s k) := by
  simp [putspRest]

theorem putspRest_odd :
    putspRest s (2 * k + 1) = putspHigh (stringFuel s - (k + 1)) (stringAddress s k) (stringWord s k) := by
  simp [putspRest, Nat.mul_add_div]

theorem packedChar_even : packedChar s (2 * k) = lowByte (stringWord s k) := by
  simp [packedChar]

theorem packedChar_odd : packedChar s (2 * k + 1) = highByte (stringWord s k) := by
  simp [packedChar, Nat.mul_add_div]

end

theorem exec_putsp_eq_putspRest (u : BitVec 4) (s : State) : exec (.trap u 0x24) s = putspRest s 0 s := by
  rw [exec_trap_putsp, servicePutsp, ← stringAddress_zero]
  rfl

/-- While the bytes are not zero, and the fuel lasts, PUTSP writes them: a low byte from the loop, a high byte from
within it. -/
theorem putspRest_writesInOrder {s : State} {n : Nat} (codes : ∀ j < n, packedChar s j ≠ 0)
    (fuel : n ≤ 2 * stringFuel s) : WritesInOrder 0x24 s (packedChar s) n (putspRest s) := by
  intro j lt c
  have code := codes j lt
  obtain ⟨k, rfl | rfl⟩ := j.even_or_odd'
  · have more : stringFuel s - k = stringFuel s - (k + 1) + 1 := by omega
    rw [packedChar_even] at code ⊢
    rw [putspRest_even, more, putspRest_odd]
    exact putspLoop_of_low code
  · rw [packedChar_odd] at code ⊢
    rw [putspRest_odd, show 2 * k + 1 + 1 = 2 * (k + 1) from rfl, putspRest_even, stringAddress_succ]
    exact if_neg code

/-- At a zero byte PUTSP is done, if the fuel reaches its word. -/
theorem putspRest_of_terminator {s : State} {n : Nat} (terminator : packedChar s n = 0) (fuel : n < 2 * stringFuel s)
    (c : Console) : putspRest s n { s with console := c } = .next { s with console := c } := by
  obtain ⟨k, rfl | rfl⟩ := n.even_or_odd'
  · have more : stringFuel s - k = stringFuel s - (k + 1) + 1 := by omega
    rw [packedChar_even] at terminator
    rw [putspRest_even, more]
    exact putspLoop_of_terminator terminator
  · rw [packedChar_odd] at terminator
    rw [putspRest_odd]
    exact if_pos terminator

/-- The address wraps after 65,536 words of two bytes each. -/
theorem packedChar_add_131072 (s : State) (j : Nat) : packedChar s (j + 131072) = packedChar s j := by
  have sameByte : (j + 131072) % 2 = j % 2 := by omega
  have wordFurther : (j + 131072) / 2 = j / 2 + 65536 := by omega
  simp only [packedChar, sameByte, wordFurther, stringWord_add_65536]

/-- Settles O46: a zero byte stands within 131,072 bytes, so the fuel reaches it. -/
theorem putspWritesPackedString : Obligations.PutspWritesPackedString := by
  intro u s n codes terminator accepts
  have near : n < 131072 := first_zero_lt_period (packedChar_add_131072 s) (by decide) codes terminator
  have fuel : n < 2 * stringFuel s := by rw [stringFuel]; omega
  rw [exec_putsp_eq_putspRest, (putspRest_writesInOrder codes fuel.le).of_accepts accepts]
  exact putspRest_of_terminator terminator fuel _

/-- Settles O47: the fuel counts the listed answers, so it reaches the call that is not accepted. -/
theorem putspStopsAtFailure : Obligations.PutspStopsAtFailure := by
  intro u s n codes
  have codes' : ∀ j < n + 1, packedChar s j ≠ 0 := fun j lt => codes j (Nat.le_of_lt_succ lt)
  rw [exec_putsp_eq_putspRest]
  exact stops_at_call fun listed => putspRest_writesInOrder codes' (by rw [stringFuel]; omega)

end Sys2Proof.Proofs
end

section
/-! IN (44_trap.md R187): the prompt, the read, the echo, and then R0; and the calls that keep GETC, OUT and IN from
completing (R192, 70_reset_and_hazards.md R256). -/

namespace Sys2Proof.Proofs

open Sys2Proof.Machine Sys2Proof.Safety

/-! ## The prompt -/

/-- IN after its prompt: the read, the echo and the write of R0. -/
def inAfterPrompt (s : State) : Out :=
  inputThen 0x23 s fun b s' => emitThen 0x23 b s' fun s'' => .next (s''.setReg trapReg (zext b))

/-- What IN, begun in `s`, still does after `j` codes of its prompt. -/
def inRest (s : State) (j : Nat) (t : State) : Out := emitAllThen 0x23 (s.inPrompt.drop j) t inAfterPrompt

theorem exec_in_eq_inRest (u : BitVec 4) (s : State) : exec (.trap u 0x23) s = inRest s 0 s := exec_trap_in u s

/-- IN writes the codes of its prompt in order. -/
theorem inRest_writesInOrder (s : State) :
    WritesInOrder 0x23 s (s.inPrompt.getD · 0) s.inPrompt.length (inRest s) := by
  intro j lt c
  have code : s.inPrompt.getD j 0 = s.inPrompt[j] := List.getD_eq_getElem _ _ lt
  simp only [inRest, List.drop_eq_getElem_cons lt, code]
  rfl

theorem firstCodes_getD {codes : List Byte} {n : Nat} (le : n ≤ codes.length) :
    firstCodes (codes.getD · 0) n = codes.take n := by
  refine List.ext_getElem (by simp [le]) fun j lt lt' => ?_
  have inside : j < codes.length := lt'.trans_le (List.length_take_le' n codes)
  simp [firstCodes, inside]

/-- An accepted prompt is written whole, and IN goes on. -/
theorem exec_in_of_prompt_accepted {s : State} (u : BitVec 4) (accepts : AcceptsCalls s.console s.inPrompt.length) :
    exec (.trap u 0x23) s = inAfterPrompt { s with console := wrote s.console s.inPrompt } := by
  have written : firstCodes (s.inPrompt.getD · 0) s.inPrompt.length = s.inPrompt := by
    rw [firstCodes_getD le_rfl, List.take_length]
  rw [exec_in_eq_inRest, (inRest_writesInOrder s).of_accepts accepts, written, inRest, List.drop_length]
  rfl

/-! ## The read and the echo -/

/-- A code read after an accepted prompt is echoed, and goes to R0 if the echo is accepted. -/
theorem exec_in_of_char {s : State} {b : Byte} {rest : List InputAnswer} (u : BitVec 4)
    (accepts : AcceptsCalls s.console s.inPrompt.length) (answered : s.console.inputs = .char b :: rest) :
    exec (.trap u 0x23) s =
      emitThen 0x23 b { s with console := wrote { s.console with inputs := rest } s.inPrompt }
        fun t => .next (t.setReg trapReg (zext b)) := by
  rw [exec_in_of_prompt_accepted u accepts, inAfterPrompt]
  exact inputThen_of_char _ _ answered

/-- Settles O44: the prompt and the echo are calls that the device accepts. -/
theorem inPromptsReadsEchoes : Obligations.InPromptsReadsEchoes := by
  intro u s b rest answered accepts
  have prompted : AcceptsCalls s.console s.inPrompt.length := acceptsCalls_mono accepts (Nat.le_succ _)
  rw [(exec_in_of_char u prompted answered).trans (emitThen_of_accepts s b _ _ accepts)]
  exact writesR0_setReg s _ (zext b)

/-- Settles O45, by the call that fails: one of the prompt, the read, or the echo. -/
theorem inStopsAtFailure : Obligations.InStopsAtFailure := by
  intro u s
  refine ⟨fun n lt fails => ?prompt, fun rest accepts failed => ?read, fun b rest fails answered => ?echo⟩
  case prompt =>
    rw [exec_in_eq_inRest, ((inRest_writesInOrder s).mono lt).of_fails fails, firstCodes_getD lt.le]
  case read =>
    rw [exec_in_of_prompt_accepted u accepts, inAfterPrompt]
    exact inputThen_of_fail _ _ failed
  case echo =>
    rw [exec_in_of_char u (acceptsCalls_of_failsAfter fails) answered]
    exact emitThen_of_fails s b _ _ fails

/-! ## Calls that are never answered -/

/-- Settles O39: each clause is the first call that its device does not answer. -/
theorem unansweredCallsNeverComplete : Obligations.UnansweredCallsNeverComplete := by
  intro u s
  refine ⟨fun unanswered => ?getc, fun unanswered accepts => ?read, fun silent => ?out, fun n lt silent => ?prompt,
    fun b rest answered silent => ?echo⟩
  case getc => exact inputThen_of_unanswered _ _ unanswered
  case read =>
    rw [exec_in_of_prompt_accepted u accepts, inAfterPrompt]
    exact inputThen_of_unanswered _ _ unanswered
  case out =>
    have runs := (outRest_writesInOrder s).of_silent silent
    rwa [← exec_out_eq_outRest u, firstCodes_zero, List.append_nil] at runs
  case prompt =>
    rw [exec_in_eq_inRest, ((inRest_writesInOrder s).mono lt).of_silent silent, firstCodes_getD lt.le]
  case echo =>
    rw [exec_in_of_char u (acceptsCalls_of_silentAfter silent) answered]
    exact emitThen_of_silent s b _ _ silent

end Sys2Proof.Proofs
end

section
/-! The reserved opcodes (45_reserved.md R210, R211): one execution rule and one step rule for RTI and RES alike. -/

namespace Sys2Proof.Proofs

open Sys2Proof.Machine Sys2Proof.Safety

/-! ## The words of the reserved opcodes -/

/-- A field of four bits placed above one of twelve: the word that lays them side by side (R73). -/
theorem place_or_place_eq_append (f : BitVec 4) (u : BitVec 12) : place 12 f ||| place 0 u = f ++ u := by
  refine BitVec.eq_of_getLsbD_eq fun j inWord => ?_
  rw [BitVec.getLsbD_or, getLsbD_place, getLsbD_place, BitVec.getLsbD_append]
  by_cases low : j < 12
  · have below : ¬ 12 ≤ j := by omega
    simp [inWord, low, below]
  · have above : 12 ≤ j := by omega
    simp [inWord, low, above]

theorem encode_rti (u : BitVec 12) : encode (.rti u) = 0b1000#4 ++ u := place_or_place_eq_append _ u
theorem encode_res (u : BitVec 12) : encode (.res u) = 0b1101#4 ++ u := place_or_place_eq_append _ u

/-- Every bit of a reserved word is the opcode or kept undecoded, so the encoder gives the word back. -/
theorem encode_decodeWord_of_reserved {w : Word} (reserved : decodeOpcode w = .rti ∨ decodeOpcode w = .res) :
    encode (decodeWord w) = w := by
  have whole : w &&& 0xFFFF = w := BitVec.and_allOnes
  rcases reserved with opcode | opcode
  all_goals
    rw [encode_decodeWord_of_ne_trap (by simp [opcode])]
    simpa [occupiedBits, canonicalIgnored, opcode] using whole

/-! ## Their effect -/

/-- The opcode on the record is that of the instruction's form. -/
theorem fieldOpcode_encode (i : Instr) : fieldOpcode (encode i) = opcodeValue (instrOpcode i) :=
  (decodeOpcode_eq_iff _ _).mp (decodeOpcode_encode i)

/-- A reserved instruction changes the status alone, with its full record (R221, R222). -/
theorem exec_of_reserved {i : Instr} (reserved : instrOpcode i = .rti ∨ instrOpcode i = .res) (s : State) :
    exec i s = .next { s with
      status := .faulted ⟨.illFormedInstruction, s.pc - 1, encode i, opcodeValue (instrOpcode i), none⟩ } := by
  have raises : exec i s = .next (s.raiseIllFormed (encode i)) := by
    cases i with
    | rti | res => rfl
    | add | addImm | and | andImm | not | br | jmp | jsr | jsrr => simp [instrOpcode] at reserved
    | ld | ldi | ldr | lea | st | sti | str | trap => simp [instrOpcode] at reserved
  rw [raises, State.raiseIllFormed, State.faultRecord, fieldOpcode_encode]
  rfl

/-- A step that fetches a reserved word records that word, at the address before the fetch increment. -/
theorem step_of_reserved {s : State} {w : Word} {op : Opcode} (running : s.status = .running)
    (word : s.memRead s.pc = w) (opcode : decodeOpcode w = op) (reserved : op = .rti ∨ op = .res) :
    step s = .next { s with pc := s.pc + 1
                            status := .faulted ⟨.illFormedInstruction, s.pc, w, opcodeValue op, none⟩ } := by
  subst opcode
  have runs := exec_of_reserved (by rwa [instrOpcode_decodeWord]) s.advancePc
  have address : s.advancePc.pc - 1 = s.pc := BitVec.add_sub_cancel s.pc 1
  rw [step_of_memRead word running, runs, encode_decodeWord_of_reserved reserved, instrOpcode_decodeWord, address]
  rfl

/-- Settles O52: the mask of a word covers the opcode alone, and RTI and RES share one rule. -/
theorem reservedOpcodesAreFatal : Obligations.ReservedOpcodesAreFatal := by
  refine ⟨rfl, fun u s => ⟨?rti, ?res⟩, fun s w running word => ⟨fun format => ?rtiStep, fun format => ?resStep⟩⟩
  case rti => rw [exec_of_reserved (.inl rfl), encode_rti]; rfl
  case res => rw [exec_of_reserved (.inr rfl), encode_res]; rfl
  case rtiStep => exact step_of_reserved running word (decodeOpcode_of_format format rfl rfl) (.inl rfl)
  case resStep => exact step_of_reserved running word (decodeOpcode_of_format format rfl rfl) (.inr rfl)

end Sys2Proof.Proofs
end

section
/-! How an instruction can end the run: HALT, the two fatal conditions, and a device that fails under a service
(44_trap.md R189, 60_exceptions.md R220 to R224). From these endings, what every step keeps. -/

namespace Sys2Proof.Proofs

open Sys2Proof.Machine Sys2Proof.Safety

/-! ## How a service ends (R184 to R188, R223) -/

/-- `t` is `s` but for the console, whose output has grown, and the status, since `device` failed in the service of
`vector` (R223). For the output device this is `OutputFailed`. -/
def DeviceFailed (vector : Byte) (device : Device) (s t : State) : Prop :=
  (∃ codes, t.console.written = s.console.written ++ codes) ∧
    t = { s with console := t.console, status := .ioFailed (ioRecord s vector device) }

/-- A service of `vector` other than HALT completes with the status as it was, or a device that it calls fails. -/
inductive ServiceEnds (vector : Byte) (s t : State) : Prop
  | completes (status : t.status = s.status)
  | fails (device : Device) (calls : vector ∈ deviceVectors device) (failed : DeviceFailed vector device s t)

/-- A service that has gone on to a state with more output ends as it does from that state. -/
theorem ServiceEnds.of_consoleGrown {v : Byte} {s s' t : State} (grown : ConsoleGrown s s')
    (ends : ServiceEnds v s' t) : ServiceEnds v s t := by
  obtain ⟨⟨codes, written⟩, same⟩ := grown
  cases ends with
  | completes status => exact .completes (by rw [status, same])
  | fails device calls failed =>
    obtain ⟨⟨more, written'⟩, eq⟩ := failed
    rw [same] at eq
    exact .fails device calls ⟨⟨codes ++ more, by rw [written', written, List.append_assoc]⟩, eq⟩

/-- The loops of PUTS and PUTSP end in one of these ways (R186, R188). -/
theorem ServiceEnds.of_loop {v : Byte} {s t : State} (calls : v ∈ deviceVectors .output)
    (h : ConsoleGrown s t ∨ OutputFailed v s t) : ServiceEnds v s t := by
  rcases h with ⟨-, same⟩ | failed
  · exact .completes (by rw [same])
  · exact .fails .output calls failed

theorem consoleGrown_of_char {b : Byte} {s s' : State} (h : s.input = .char b s') : ConsoleGrown s s' := by
  obtain ⟨rfl, -⟩ := State.input_eq_char h
  exact ⟨⟨[], (List.append_nil _).symm⟩, rfl⟩

/-- A service that emits a code ends in the call, or as it does after it. -/
theorem emitThen_ends {v b : Byte} {s t : State} {k : State → Out} (calls : v ∈ deviceVectors .output)
    (after : ∀ s', k s' = .next t → ServiceEnds v s' t) (h : emitThen v b s k = .next t) : ServiceEnds v s t := by
  rcases emitThen_eq_next h with ⟨s', written, hk⟩ | ⟨s', failed, rfl⟩
  · exact (after s' hk).of_consoleGrown (.of_ok written (.refl s'))
  · exact .fails .output calls (OutputFailed.of_fail failed)

/-- A service that reads a code ends in the call, or as it does after it. -/
theorem inputThen_ends {v : Byte} {s t : State} {k : Byte → State → Out} (calls : v ∈ deviceVectors .input)
    (after : ∀ b s', k b s' = .next t → ServiceEnds v s' t) (h : inputThen v s k = .next t) :
    ServiceEnds v s t := by
  rcases inputThen_eq_next h with ⟨b, s', answered, hk⟩ | ⟨s', failed, rfl⟩
  · exact (after b s' hk).of_consoleGrown (consoleGrown_of_char answered)
  · obtain ⟨rfl, -⟩ := State.input_eq_fail failed
    exact .fails .input calls ⟨⟨[], (List.append_nil _).symm⟩, rfl⟩

/-- A service whose last act is to write R0 leaves the status. -/
theorem setReg_ends {v : Byte} {s t : State} {w : Word}
    (h : (.next (s.setReg trapReg w) : Out) = .next t) : ServiceEnds v s t :=
  .completes (Host.Outcome.next.inj h ▸ rfl)

theorem serviceGetc_ends {s t : State} (h : serviceGetc s = .next t) : ServiceEnds 0x20 s t :=
  inputThen_ends (by decide) (fun _ _ => setReg_ends) h

theorem serviceOut_ends {s t : State} (h : serviceOut s = .next t) : ServiceEnds 0x21 s t :=
  emitThen_ends (by decide) (fun _ hk => .completes (Host.Outcome.next.inj hk ▸ rfl)) h

/-- IN ends in its prompt, in its read, in its echo, or completes (R187). -/
theorem serviceIn_ends {s t : State} (h : serviceIn s = .next t) : ServiceEnds 0x23 s t := by
  rcases emitAllThen_eq_next _ h with failed | ⟨s', same, written, -, hk⟩
  · exact .fails .output (by decide) failed
  · refine .of_consoleGrown ⟨⟨_, written⟩, same⟩ (inputThen_ends (by decide) (fun _ _ echo => ?_) hk)
    exact emitThen_ends (by decide) (fun _ => setReg_ends) echo

/-! ## How an instruction ends -/

/-- The vector of a service in the dispatcher's table (R181). -/
def vectorOf : Service → Byte
  | .getc => 0x20
  | .out => 0x21
  | .puts => 0x22
  | .inp => 0x23
  | .putsp => 0x24
  | .halt => 0x25

theorem eq_vectorOf {v : Byte} {service : Service} (named : serviceOf v = some service) : v = vectorOf service := by
  revert v
  cases service <;> decide

/-- The ways in which the instruction `i`, run on the handler's state `s`, can leave the run status of `t`, each with
all that it changes when it stops the machine. -/
inductive Ending (i : Instr) (s t : State) : Prop
  /-- The machine goes on as before. -/
  | goesOn (status : t.status = s.status)
  /-- HALT (R189). -/
  | halts (u : BitVec 4) (instr : i = .trap u 0x25) (eq : t = s.halt)
  /-- RTI and RES (R210, R211). -/
  | reserved (opcode : instrOpcode i = .rti ∨ instrOpcode i = .res)
      (eq : t = { s with
        status := .faulted ⟨.illFormedInstruction, s.pc - 1, encode i, opcodeValue (instrOpcode i), none⟩ })
  /-- TRAP with an undefined vector (R190). -/
  | badVector (u : BitVec 4) (v : Byte) (instr : i = .trap u v) (undefined : definedVector v = false)
      (eq : t = s.raiseBadVector (encode i))
  /-- A service whose device fails (R223). -/
  | deviceFails (u : BitVec 4) (v : Byte) (device : Device) (instr : i = .trap u v)
      (calls : v ∈ deviceVectors device) (failed : DeviceFailed v device s t)

theorem Ending.of_service {u : BitVec 4} {v : Byte} {s t : State} (ends : ServiceEnds v s t) :
    Ending (.trap u v) s t := by
  cases ends with
  | completes status => exact .goesOn status
  | fails device calls failed => exact .deviceFails u v device rfl calls failed

theorem execTrap_ending {u : BitVec 4} {v : Byte} {s t : State} (h : execTrap u v s = .next t) :
    Ending (.trap u v) s t := by
  by_cases defined : definedVector v = true
  · obtain ⟨service, named⟩ := Option.isSome_iff_exists.mp ((serviceOf_isSome v).trans defined)
    obtain rfl := eq_vectorOf named
    cases service with
    | getc => exact .of_service (serviceGetc_ends h)
    | out => exact .of_service (serviceOut_ends h)
    | puts => exact .of_service (.of_loop (by decide) (putsLoop_eq_next _ _ _ _ h))
    | inp => exact .of_service (serviceIn_ends h)
    | putsp => exact .of_service (.of_loop (by decide) (putspLoop_eq_next _ _ _ _ h))
    | halt => exact .halts u rfl (Host.Outcome.next.inj h).symm
  · have undefined := Bool.eq_false_of_not_eq_true defined
    rw [execTrap_of_undefined undefined] at h
    exact .badVector u v rfl undefined (Host.Outcome.next.inj h).symm

/-- Every way in which `exec` can leave the run status, when it answers a next state. -/
theorem exec_ending {i : Instr} {s t : State} (h : exec i s = .next t) : Ending i s t := by
  cases i with
  | add | addImm | and | andImm | not | ld | ldi | ldr | lea => cases h; exact .goesOn rfl
  | st | sti | str | jmp | jsr | jsrr => cases h; exact .goesOn rfl
  | br m off =>
    have moved := Host.Outcome.next.inj ((execBr_eq m off s).symm.trans h)
    exact .goesOn (moved ▸ rfl)
  | trap u v => exact execTrap_ending h
  | rti u =>
    rw [exec_of_reserved (.inl rfl)] at h
    exact .reserved (.inl rfl) (Host.Outcome.next.inj h).symm
  | res u =>
    rw [exec_of_reserved (.inr rfl)] at h
    exact .reserved (.inr rfl) (Host.Outcome.next.inj h).symm

/-! ## The invariant -/

/-- Every instruction keeps memory canonical: the stores write whole words, and no other instruction writes memory. -/
theorem exec_keeps_wf {i : Instr} {s t : State} (canonical : s.mem.wf = true) (h : exec i s = .next t) :
    t.mem.wf = true := by
  cases exec_effect h with
  | stores ea v eq => rw [eq]; exact Memory.wf_writeWord canonical ea v
  | writesResult _ _ eq | jumps eq | calls eq | reserved eq => rw [eq]; exact canonical
  | traps u v eq frame => rw [frame.mem]; exact canonical

theorem statusTrue_of_running {t : State} (running : t.status = .running) : StatusTrue t := by
  rw [StatusTrue, running]; trivial

/-- A running machine that executes the word just before PC ends in a status that is true of it: whatever stops it
changes neither PC nor memory, so the word is still there to be named. -/
theorem exec_statusTrue {s t : State} (running : s.status = .running)
    (h : exec (decodeWord (s.memRead (s.pc - 1))) s = .next t) : StatusTrue t := by
  cases exec_ending h with
  | goesOn status => exact statusTrue_of_running (status.trans running)
  | halts u instr eq => rw [eq]; exact ⟨u, instr⟩
  | reserved opcode eq =>
    rw [instrOpcode_decodeWord] at opcode
    rw [opcodeValue_decodeWord, encode_decodeWord_of_reserved opcode] at eq
    rw [eq]
    refine ⟨rfl, rfl, rfl, (wellFormed_decodeWord_eq_false_iff _).mpr ?_, .inl ⟨rfl, ?_, rfl⟩⟩
    · exact opcode.imp_right .inl
    · exact opcode.imp (decodeOpcode_eq_iff _ _).mp (decodeOpcode_eq_iff _ _).mp
  | badVector u v instr undefined eq =>
    have trap : decodeOpcode (s.memRead (s.pc - 1)) = .trap := by rw [← instrOpcode_decodeWord, instr]; rfl
    have opcode := (decodeOpcode_eq_iff _ _).mp trap
    rw [encode_decodeWord_of_trap trap, raiseBadVector_of_trap trap] at eq
    rw [eq]
    refine ⟨rfl, rfl, opcode.symm, ?_, .inr ⟨rfl, rfl, rfl⟩⟩
    show (decodeWord (s.memRead (s.pc - 1))).wellFormed = false
    rw [instr]
    exact undefined
  | deviceFails u v device instr calls failed =>
    obtain ⟨-, eq⟩ := failed
    rw [eq]
    exact ⟨rfl, rfl, ⟨u, instr⟩, calls⟩

/-- The instruction that the handler runs stands one before its PC (R23, R82). -/
theorem advancePc_pc_sub_one (s : State) : s.advancePc.pc - 1 = s.pc := BitVec.add_sub_cancel s.pc 1

/-- Settles O3: a stopped machine stays as it is; a running one executes one instruction, which keeps memory canonical
and ends in a true status. -/
theorem stepKeepsInvariant : Obligations.StepKeepsInvariant := by
  intro s t inv h
  rcases step_eq_next h with ⟨running, runs⟩ | ⟨-, rfl⟩
  · refine ⟨exec_keeps_wf (s := s.advancePc) inv.memory runs, exec_statusTrue (s := s.advancePc) running ?_⟩
    rw [advancePc_pc_sub_one]
    exact runs
  · exact inv

/-! ## The two kinds of failure -/

/-- The step port answers false after a step that stops the machine (R44). -/
theorem stepPort_of_stops {s t : State} (h : step s = .next t) (stopped : t.status ≠ .running) :
    stepPort s = .next (t, false) :=
  stepPort_eq_next.mpr ⟨h, (decide_eq_false stopped).symm⟩

/-- Settles O53: only an illegal instruction ends in Faulted, and it does nothing else. -/
theorem fatalChangesNothingElse : Obligations.FatalChangesNothingElse := by
  intro s t r running h faulted
  refine ⟨?_, stepPort_of_stops h (by simp [faulted])⟩
  rw [step_of_running running] at h
  have illegal := (exec_faulted_iff (s := s.advancePc) running).mp ⟨t, r, h, faulted⟩
  obtain ⟨r', raised⟩ := exec_of_illegal illegal s.advancePc
  obtain rfl := Host.Outcome.next.inj (raised.symm.trans h)
  obtain rfl : r' = r := Status.faulted.inj faulted
  rfl

/-- The failure of a device is the one ending in IOFailed. -/
theorem exec_ioFailed {i : Instr} {s t : State} {r : IORecord} (running : s.status = .running)
    (h : exec i s = .next t) (ioFailed : t.status = .ioFailed r) :
    (∃ u, i = .trap u r.vector) ∧ r.vector ∈ deviceVectors r.device ∧ r = ioRecord s r.vector r.device ∧
      DeviceFailed r.vector r.device s t := by
  cases exec_ending h with
  | goesOn status => simp [status, running] at ioFailed
  | halts _ _ eq | reserved _ eq | badVector _ _ _ _ eq => rw [eq] at ioFailed; cases ioFailed
  | deviceFails u v device instr calls failed =>
    obtain ⟨written, eq⟩ := failed
    obtain rfl : ioRecord s v device = r := by rw [eq] at ioFailed; exact Status.ioFailed.inj ioFailed
    exact ⟨⟨u, instr⟩, calls, rfl, written, eq⟩

/-- Settles O54: a device that a service calls has failed, at the instruction before the handler's PC. -/
theorem ioFailureIsPrecise : Obligations.IOFailureIsPrecise := by
  intro s t r running h ioFailed
  have port := stepPort_of_stops h (by simp [ioFailed])
  rw [step_of_running running] at h
  obtain ⟨instr, calls, record, written, eq⟩ := exec_ioFailed (s := s.advancePc) running h ioFailed
  rw [← record] at eq
  have address : r.address = s.pc := by rw [record]; exact advancePc_pc_sub_one s
  have code : r.condition.code = 3 := by rw [record]; rfl
  exact ⟨instr, calls, address, code, eq, written, port⟩

end Sys2Proof.Proofs
end

section
/-! The image loader (70_reset_and_hazards.md R251): where it puts each word, what it leaves unchanged, and how it reads
a byte stream. -/

namespace Sys2Proof.Proofs

open Sys2Proof.Machine Sys2Proof.Safety

/-! ## Words placed one after the other -/

/-- Word `k + 1` from `a` on is word `k` from the next address on. -/
theorem add_ofNat_succ (a : Word) (k : Nat) : a + BitVec.ofNat 16 (k + 1) = a + 1 + BitVec.ofNat 16 k := by
  rw [Nat.add_comm, BitVec.ofNat_add, ← BitVec.add_assoc]
  rfl

/-- The addresses after `a`, fewer than all the others, do not wrap back to `a`. -/
theorem ne_add_one_add_ofNat (a : Word) {k : Nat} (h : k < 65535) : a ≠ a + 1 + BitVec.ofNat 16 k := by
  bv_omega

theorem memRead_memWrite_self (s : State) (a v : Word) : (s.memWrite a v).memRead a = v :=
  readWord_writeWord_self s.mem a v

theorem memRead_memWrite_of_ne (s : State) {a b : Word} (v : Word) (h : b ≠ a) :
    (s.memWrite a v).memRead b = s.memRead b :=
  readWord_writeWord_of_ne s.mem v h

/-- The loader leaves every word outside the image as it was. -/
theorem memRead_loadFrom_of_outside (s : State) {a b : Word} {words : List Word}
    (outside : ∀ k < words.length, b ≠ a + BitVec.ofNat 16 k) : (s.loadFrom a words).memRead b = s.memRead b := by
  induction words generalizing s a with
  | nil => rfl
  | cons w words ih =>
    have notFirst : b ≠ a := by simpa using outside 0 (Nat.succ_pos _)
    have notLater : ∀ k < words.length, b ≠ a + 1 + BitVec.ofNat 16 k := fun k lt =>
      add_ofNat_succ a k ▸ outside (k + 1) (Nat.succ_lt_succ lt)
    rw [State.loadFrom, ih _ notLater, memRead_memWrite_of_ne s w notFirst]

/-- An image of at most 65,536 words overwrites none of its own, so each is read back. -/
theorem memRead_loadFrom (s : State) (a : Word) {words : List Word} (size : words.length ≤ 65536) (k : Nat)
    (h : k < words.length) : (s.loadFrom a words).memRead (a + BitVec.ofNat 16 k) = words[k] := by
  induction words generalizing s a k with
  | nil => cases h
  | cons w words ih =>
    rw [List.length_cons] at size h
    cases k with
    | zero =>
      have untouched : ∀ j < words.length, a ≠ a + 1 + BitVec.ofNat 16 j := fun j lt =>
        ne_add_one_add_ofNat a (by omega)
      rw [BitVec.add_zero, State.loadFrom, memRead_loadFrom_of_outside _ untouched]
      exact memRead_memWrite_self s a w
    | succ k =>
      rw [add_ofNat_succ]
      exact ih _ _ (by omega) k (by omega)

/-! ## Byte streams -/

/-- An odd number of bytes is no sequence of words. -/
theorem wordsOfBytes_of_odd : ∀ {bytes : List Byte}, bytes.length % 2 = 1 → wordsOfBytes bytes = none
  | [], odd => by cases odd
  | [_], _ => rfl
  | _ :: _ :: rest, odd => by
    have restOdd : rest.length % 2 = 1 := by rw [List.length_cons, List.length_cons] at odd; omega
    rw [wordsOfBytes, wordsOfBytes_of_odd restOdd, Option.map_none]

/-- The bytes of words, the high one of each first, are read as these words. -/
theorem wordsOfBytes_flatMap_bytes (words : List Word) :
    wordsOfBytes (words.flatMap fun w => [highByte w, lowByte w]) = some words := by
  induction words with
  | nil => rfl
  | cons w words ih =>
    change (wordsOfBytes (words.flatMap fun w => [highByte w, lowByte w])).map
      (wordOfBytes (highByte w) (lowByte w) :: ·) = some (w :: words)
    rw [ih, wordOfBytes_highByte_lowByte, Option.map_some]

/-! ## The loader -/

/-- Settles O14: the image is placed by `loadFrom`, which changes memory alone (`loadFrom_eq`), and the bytes of an
image are read as its words. -/
theorem loaderPlacesImage : Obligations.LoaderPlacesImage := by
  intro s
  refine ⟨fun origin words fits => ?placed, fun origin words long => ?tooLong, fun bytes odd => ?odd,
    fun words => ?bytes⟩
  case placed =>
    refine ⟨(s.loadFrom origin words).setPc origin, if_pos fits, rfl,
      memRead_loadFrom s origin (by omega), fun a => memRead_loadFrom_of_outside s, ?_⟩
    rw [loadFrom_eq]
    exact ⟨fun _ _ => rfl, rfl, rfl, rfl, rfl⟩
  case tooLong => exact if_neg (Nat.not_le_of_lt long)
  case odd => rw [State.loadImageBytes, wordsOfBytes_of_odd odd]
  case bytes =>
    have read := wordsOfBytes_flatMap_bytes words
    unfold highByte lowByte at read
    rw [State.loadImageBytes, read]

end Sys2Proof.Proofs
end

section
/-! Strings that never end (70_reset_and_hazards.md R256 (b)): when PUTS and PUTSP use up the fuel of log 7. -/

namespace Sys2Proof.Proofs

open Sys2Proof.Machine Sys2Proof.Safety

/-! ## The calls that a device does not accept -/

section
variable {c : Console} {n : Nat}

/-- A device that accepts `n` calls accepts one more, fails it, or never answers it. -/
theorem next_call_answered_or_not (h : AcceptsCalls c n) :
    AcceptsCalls c (n + 1) ∨ FailsAfter c n ∨ SilentAfter c n := by
  obtain ⟨oks, enough⟩ := h
  by_cases listed : n < c.outputs.length
  · cases answer : c.outputs[n] with
    | ok =>
      have oks' : ∀ a ∈ c.outputs.take (n + 1), a = OutputAnswer.ok := by
        rw [List.take_succ_eq_append_getElem listed, answer]
        exact List.forall_mem_append.mpr ⟨oks, List.forall_mem_singleton.mpr rfl⟩
      exact .inl ⟨oks', .inl listed⟩
    | fail => exact .inr (.inl ⟨oks, List.getElem?_eq_some_iff.mpr ⟨listed, answer⟩⟩)
  · have used : c.outputs.length ≤ n := Nat.le_of_not_lt listed
    rw [List.take_of_length_le used] at oks
    cases rest : c.outputRest with
    | ok => exact .inl ⟨fun a ha => oks a (List.mem_of_mem_take ha), .inr rest⟩
    | silent =>
      have all : n ≤ c.outputs.length := enough.resolve_right (by simp [rest])
      exact .inr (.inr ⟨oks, used.antisymm all, rest⟩)

/-- A device that does not accept `n` calls has a first one among them that it fails or never answers. -/
theorem exists_refused_call (h : ¬ AcceptsCalls c n) : ∃ m < n, FailsAfter c m ∨ SilentAfter c m := by
  induction n with
  | zero => exact absurd ⟨by simp, .inl (Nat.zero_le _)⟩ h
  | succ n ih =>
    by_cases accepts : AcceptsCalls c n
    · exact ⟨n, n.lt_succ_self, (next_call_answered_or_not accepts).resolve_left h⟩
    · obtain ⟨m, lt, refused⟩ := ih accepts
      exact ⟨m, lt.trans n.lt_succ_self, refused⟩

/-- After more calls than it has listed answers, a device answers for ever as it did then. -/
theorem acceptsCalls_iff_acceptsForEver (h : c.outputs.length < n) : AcceptsCalls c n ↔ AcceptsForEver c := by
  rw [AcceptsCalls, AcceptsForEver, List.take_of_length_le h.le, or_iff_right (Nat.not_le_of_lt h)]

end

/-! ## Services that never end -/

section
variable {v : Byte} {s : State} {code : Nat → Byte} {rest : Nat → State → Out}

/-- A service that writes `n` codes never ends exactly when the device accepts these and what follows them never ends:
a call that is not accepted stops it otherwise. -/
theorem WritesInOrder.neverEnds_iff {n : Nat} (h : WritesInOrder v s code n rest) :
    rest 0 s = .fault .stringNeverEnds ↔ AcceptsCalls s.console n ∧
      rest n { s with console := wrote s.console (firstCodes code n) } = .fault .stringNeverEnds := by
  by_cases accepts : AcceptsCalls s.console n
  · rw [h.of_accepts accepts, and_iff_right accepts]
  · obtain ⟨m, lt, fails | silent⟩ := exists_refused_call accepts
    · simp [(h.mono lt).of_fails fails, accepts]
    · simp [(h.mono lt).of_silent silent, accepts]

/-- What remains of a service, `rest j` after `j` codes, is a loop over a string that repeats itself: it writes codes
until the first zero character, where it is done, and gives up after `fuel` characters, which reach past the string's
period and the device's listed answers. -/
structure LoopsOverString {w : Nat} (v : Byte) (s : State) (char : Nat → BitVec w) (code : Nat → Byte)
    (rest : Nat → State → Out) (period fuel : Nat) : Prop where
  repeats : ∀ k, char (k + period) = char k
  period_pos : 0 < period
  period_le_fuel : period ≤ fuel
  listed_lt_fuel : s.console.outputs.length < fuel
  writes : ∀ n ≤ fuel, (∀ k < n, char k ≠ 0) → WritesInOrder v s code n rest
  ends : ∀ n < fuel, char n = 0 → ∀ c : Console, rest n { s with console := c } = .next { s with console := c }
  gives_up : ∀ t, rest fuel t = .fault .stringNeverEnds

/-- Such a loop never ends exactly when the string has no zero character and the device accepts every call. -/
theorem LoopsOverString.neverEnds_iff {w : Nat} {char : Nat → BitVec w} {period fuel : Nat}
    (h : LoopsOverString v s char code rest period fuel) :
    rest 0 s = .fault .stringNeverEnds ↔ (∀ k, char k ≠ 0) ∧ AcceptsForEver s.console := by
  by_cases endless : ∀ k, char k ≠ 0
  · rw [(h.writes fuel le_rfl fun k _ => endless k).neverEnds_iff, h.gives_up,
      acceptsCalls_iff_acceptsForEver h.listed_lt_fuel, and_iff_left rfl, and_iff_right endless]
  · have zero : ∃ k, char k = 0 := by simpa using endless
    obtain ⟨n, terminator, codes⟩ : ∃ n, char n = 0 ∧ ∀ k < n, char k ≠ 0 :=
      ⟨Nat.find zero, Nat.find_spec zero, fun _ => Nat.find_min zero⟩
    have near : n < fuel :=
      (first_zero_lt_period h.repeats h.period_pos codes terminator).trans_le h.period_le_fuel
    rw [(h.writes n near.le codes).neverEnds_iff, h.ends n near terminator]
    exact iff_of_false (by simp) fun ⟨codes, _⟩ => endless codes

end

/-! ## Every word of memory is a word of the string -/

/-- The address wraps, so a string without end passes every word of memory. -/
theorem exists_stringAddress_eq (s : State) (a : Word) : ∃ k, stringAddress s k = a :=
  ⟨(a - s.reg 0).toNat, by rw [stringAddress, BitVec.ofNat_toNat, BitVec.setWidth_eq, BitVec.add_comm,
    BitVec.sub_add_cancel]⟩

theorem forall_stringWord_iff (s : State) (p : Word → Prop) : (∀ k, p (stringWord s k)) ↔ ∀ a, p (s.memRead a) := by
  refine ⟨fun h a => ?_, fun h k => h (stringAddress s k)⟩
  obtain ⟨k, rfl⟩ := exists_stringAddress_eq s a
  exact h k

/-- The bytes of a packed string are the low and the high bytes of its words. -/
theorem forall_packedChar_ne_zero_iff (s : State) :
    (∀ j, packedChar s j ≠ 0) ↔ ∀ k, lowByte (stringWord s k) ≠ 0 ∧ highByte (stringWord s k) ≠ 0 := by
  constructor
  · intro h k
    exact ⟨packedChar_even s k ▸ h (2 * k), packedChar_odd s k ▸ h (2 * k + 1)⟩
  · intro h j
    obtain ⟨k, rfl | rfl⟩ := j.even_or_odd'
    · exact packedChar_even s k ▸ (h k).1
    · exact packedChar_odd s k ▸ (h k).2

/-! ## PUTS and PUTSP -/

/-- At a zero word PUTS is done, if the fuel reaches it. -/
theorem putsRest_of_terminator {s : State} {n : Nat} (terminator : stringWord s n = 0) (fuel : n < stringFuel s)
    (c : Console) : putsRest s n { s with console := c } = .next { s with console := c } := by
  have more : stringFuel s - n = stringFuel s - (n + 1) + 1 := by omega
  rw [putsRest, more]
  exact putsLoop_of_terminator terminator

theorem putsRest_loopsOverString (s : State) :
    LoopsOverString 0x22 s (stringWord s) (fun k => lowByte (stringWord s k)) (putsRest s) 65536 (stringFuel s) where
  repeats := stringWord_add_65536 s
  period_pos := by decide
  period_le_fuel := Nat.le_add_right _ _
  listed_lt_fuel := by rw [stringFuel]; omega
  writes _ fuel codes := putsRest_writesInOrder codes fuel
  ends _ fuel terminator := putsRest_of_terminator terminator fuel
  gives_up _ := by rw [putsRest, Nat.sub_self, putsLoop]

theorem putspRest_loopsOverString (s : State) :
    LoopsOverString 0x24 s (packedChar s) (packedChar s) (putspRest s) 131072 (2 * stringFuel s) where
  repeats := packedChar_add_131072 s
  period_pos := by decide
  period_le_fuel := by rw [stringFuel]; omega
  listed_lt_fuel := by rw [stringFuel]; omega
  writes _ fuel codes := putspRest_writesInOrder codes fuel
  ends _ fuel terminator := putspRest_of_terminator terminator fuel
  gives_up _ := by rw [putspRest_even, Nat.sub_self, putspLoop]

/-- Settles O43: the words of the string are the words of memory. -/
theorem putsNeverEndsExactly : Obligations.PutsNeverEndsExactly := by
  intro u s
  rw [exec_puts_eq_putsRest, (putsRest_loopsOverString s).neverEnds_iff, forall_stringWord_iff s (· ≠ 0)]

/-- Settles O48: the bytes of the packed string are the bytes of the words of memory. -/
theorem putspNeverEndsExactly : Obligations.PutspNeverEndsExactly := by
  intro u s
  rw [exec_putsp_eq_putspRest, (putspRest_loopsOverString s).neverEnds_iff, forall_packedChar_ne_zero_iff,
    forall_stringWord_iff s fun w => lowByte w ≠ 0 ∧ highByte w ≠ 0]
  rfl

end Sys2Proof.Proofs
end
